-- ==== Sys2Proof/Word.lean ====
section
/-! DEFINITION. The Word of 00_scope.md R6 and the narrowing of an integer to it (R10). -/

namespace Sys2Proof

/-- A Word: 32 bits. Its signed view `s(w)` is `BitVec.toInt`, its unsigned view `u(w)` is `BitVec.toNat` (R6, R7). -/
abbrev Word := BitVec 32

/-- `wrap32(z)`: the Word congruent to `z` modulo 2^32 (R10). -/
def wrap32 (z : Int) : Word := BitVec.ofInt 32 z

end Sys2Proof
end

