-- ==== Sys2Proof/Syntax.lean ====
section
/-! DEFINITION. The eight instructions of 30_encoding.md R77, as the Decoder hands them to the engine. -/

namespace Sys2Proof

/-- A register index, 0..7 (R21): a 3-bit field, so every value names a register. -/
abbrev RegIdx := Fin 8

/-- One constructor per row of opcode_table.json; operands in the order of R80.
`imm` is `imm32` of R71, the immediate after sign extension.
DESIGN CHOICE: it is an Int, its range is checked by `Instr.wellFormed`; log entry 5. -/
inductive Instr where
  | add (rs rt rd : RegIdx)
  | nand (rs rt rd : RegIdx)
  | lw (rs rt : RegIdx) (imm : Int)
  | sw (rs rt : RegIdx) (imm : Int)
  | beq (rs rt : RegIdx) (imm : Int)
  | jalr (rs rt : RegIdx)
  | halt
  | noop
  deriving DecidableEq, Repr

end Sys2Proof
end

