-- ==== Sys2Proof/WellFormed.lean ====
section
/-! DEFINITION. Which terms of Instr the machine has: those with an immediate that 16 bits can hold (R9, R72, R80). -/

namespace Sys2Proof

/-- The range of a sign-extended 16-bit immediate (R9, R72). -/
def immInRange (imm : Int) : Bool := decide (-32768 ≤ imm) && decide (imm ≤ 32767)

/-- An instruction some word decodes to: register fields are in range by their type (R71), the immediate by this check. -/
def Instr.wellFormed : Instr → Bool
  | .add _ _ _ => true
  | .nand _ _ _ => true
  | .lw _ _ imm => immInRange imm
  | .sw _ _ imm => immInRange imm
  | .beq _ _ imm => immInRange imm
  | .jalr _ _ => true
  | .halt => true
  | .noop => true

abbrev Instr.WellFormed (i : Instr) : Prop := i.wellFormed = true

end Sys2Proof
end

