-- ==== Sys2Proof/Decode.lean ====
section
/-! DEFINITION. The Decoder (30_encoding.md R70 to R78): bit fields, sign extension, the opcode map; then the canonical encoder (R79). -/

namespace Sys2Proof

/-- `bits[hi:lo](w)` (R8). -/
def bits (hi lo : Nat) (w : Word) : Nat := w.toNat / 2 ^ lo % 2 ^ (hi - lo + 1)

/-- `sext_32` of a 16-bit unsigned value (R9, R72). -/
def sext16 (v : Nat) : Int := if v < 32768 then (v : Int) else (v : Int) - 65536

/-- The six outputs of the Decoder (R71, R74). -/
structure Fields where
  opcode : Fin 8
  rs : RegIdx
  rt : RegIdx
  rd : RegIdx
  imm16 : BitVec 16
  imm32 : Int
  deriving DecidableEq, Repr

/-- A 3-bit field whose lowest bit is `lo`. -/
def field3 (lo : Nat) (w : Word) : Fin 8 := Fin.ofNat 8 (bits (lo + 2) lo w)

/-- The raw 16-bit immediate, `bits[15:0]` (R71). -/
def rawImm (w : Word) : BitVec 16 := BitVec.ofNat 16 (bits 15 0 w)

/-- The Decoder as a block: all six outputs are produced for every word, whatever its opcode (R71, R73). -/
def decodeFields (w : Word) : Fields where
  opcode := field3 22 w
  rs := field3 19 w
  rt := field3 16 w
  rd := field3 0 w
  imm16 := rawImm w
  imm32 := sext16 (rawImm w).toNat

/-- The opcode map (R77): the opcode alone selects the instruction, which takes the fields its format uses (R75, R76). -/
def instrOfFields (f : Fields) : Instr :=
  match f.opcode with
  | 0 => .add f.rs f.rt f.rd
  | 1 => .nand f.rs f.rt f.rd
  | 2 => .lw f.rs f.rt f.imm32
  | 3 => .sw f.rs f.rt f.imm32
  | 4 => .beq f.rs f.rt f.imm32
  | 5 => .jalr f.rs f.rt
  | 6 => .halt
  | 7 => .noop

/-- Decoding is total: no word is illegal or reserved (R73, R78), so there is nothing to reject. -/
def decode (w : Word) : Instr := instrOfFields (decodeFields w)

/-- The opcode of each row of the opcode map (R77). -/
def Instr.opcode : Instr → Nat
  | .add _ _ _ => 0
  | .nand _ _ _ => 1
  | .lw _ _ _ => 2
  | .sw _ _ _ => 3
  | .beq _ _ _ => 4
  | .jalr _ _ => 5
  | .halt => 6
  | .noop => 7

/-- `encode(opcode, rs, rt, low16)` (R79). -/
def encodeWord (opcode rs rt low16 : Nat) : Word :=
  BitVec.ofNat 32 (opcode * 2 ^ 22 + rs * 2 ^ 19 + rt * 2 ^ 16 + low16)

/-- `imm32 mod 65536` (R79, format I). -/
def low16OfImm (imm : Int) : Nat := (imm % 65536).toNat

/-- The canonical encoding of an instruction, unused bits 0 (R79). -/
def encode : Instr → Word
  | .add rs rt rd => encodeWord 0 rs.val rt.val rd.val
  | .nand rs rt rd => encodeWord 1 rs.val rt.val rd.val
  | .lw rs rt imm => encodeWord 2 rs.val rt.val (low16OfImm imm)
  | .sw rs rt imm => encodeWord 3 rs.val rt.val (low16OfImm imm)
  | .beq rs rt imm => encodeWord 4 rs.val rt.val (low16OfImm imm)
  | .jalr rs rt => encodeWord 5 rs.val rt.val 0
  | .halt => encodeWord 6 0 0 0
  | .noop => encodeWord 7 0 0 0

/-- The memory word whose low `nbits` bits are `w` and whose other bits are 0, numbered as the opcode table numbers them. -/
def tableWord (nbits w : Nat) : Word := BitVec.ofNat 32 (w % 2 ^ nbits)

/-- What the decoder reads from a table row's word; an instruction longer than one Word does not exist (R70). -/
def decodeTableWord (nbits w : Nat) : Option Instr :=
  if nbits ≤ 32 then some (decode (tableWord nbits w)) else none

end Sys2Proof
end

