-- ==== Sys2Proof/Config.lean ====
section
/-! DEFINITION. The implementation parameters of 00_scope.md R5. -/

namespace Sys2Proof

/-- `MEM_CAPACITY`: words of memory (R5, R30). -/
abbrev Config.memCapacity : Nat := 65536

/-- `STEP_LIMIT` at its default; `none` is the laxer variant with no limit (R5, R102).
`cycle` takes the limit as an argument, `step` is `cycle` at this value.
DESIGN CHOICE (the spec's D5): the stricter variant, log entry 4. -/
def Config.stepLimit : Option Nat := some 1000000

end Sys2Proof
end

