-- ==== Sys2Proof/Machine/State.lean ====
section
/-! DEFINITION. The complete state of the SMC core (10_state.md R20), its reset values (R39), and the reasons a step can stop. -/

namespace Sys2Proof.Machine

/-- The memory: (address, word) pairs, addresses strictly rising, no word 0, every address below the capacity (`Memory.wf`).
An address that is not listed reads as 0, the spec's reset contents (R30, R39).
DESIGN CHOICE of form: cells hold Words, since the hardware has no bytes (R53, D14); log entry 1. -/
abbrev Memory := List (Nat × Word)

/-- Why the machine halted (R33). -/
inductive Cause where
  /-- Code 0: still Running. -/
  | none
  /-- Code 1: the `halt` instruction, the normal end (R151, R169). -/
  | haltInstruction
  /-- Code 2: step 3 of a cycle, `fault_info` the pc (R162). -/
  | invalidFetchAddress
  /-- Code 3: `lw` and `sw`, `fault_info` the address (R163). -/
  | outOfBoundsMemoryAccess
  /-- Code 4: never raised (R164, D16). -/
  | unknownOpcode
  /-- Code 5: step 2 of a cycle (R161). -/
  | stepLimitExceeded
  deriving DecidableEq, Repr

/-- One record of the output trace, in the order of R37: the pc, the loaded region of memory, the eight registers. -/
structure Snapshot where
  pc : Int
  mem : List Word
  regs : Vector Word 8
  deriving DecidableEq, Repr

/-- The complete state (R20). Field by field: the general registers (R21), the pc (R24), the one memory (R30),
the length of the program image (R31), the Running/Halted flag (R32), the reported condition and its context (R33, R34),
the step counter (R35) and the output trace, oldest record first (R37).
DESIGN CHOICE: the pc is an unbounded Int, as D2 allows; log entry 2. -/
structure State where
  regs : Vector Word 8
  pc : Int
  mem : Memory
  loadedCount : Nat
  halted : Bool
  cause : Cause
  faultInfo : Option Word
  steps : Nat
  trace : List Snapshot
  deriving DecidableEq, Repr

/-- Why no step is possible. -/
inductive Fault where
  /-- Raised by `cycle` (so by `step`) in the Halted state, where no step is enabled (R110, R171); it carries the reported
  outcome (R170), so the normal end (`haltInstruction`) and the four faulted ends stay distinct (D17).
  Safe: the machine stops where the hardware stops too; log entry 6. -/
  | halted (cause : Cause) (info : Option Word)
  deriving DecidableEq, Repr

/-- What the model gives no meaning. -/
inductive Refusal where
  /-- Raised by an arm of `exec` whose instruction has no meaning yet; no arm is left so. Safe. -/
  | notModelled (mnemonic : String)
  /-- Raised by `launch` for loader input outside the contract of R191 (D12, U8). Safe: the spec refuses it too; log entry 13. -/
  | imageOutsideContract
  deriving DecidableEq, Repr

/-- The machine right after reset with the empty image (R39): `loaded_count` and the image come from the loader (R190),
and `launch` is the reset that takes them.
DESIGN CHOICE: the loader's input in State.reset is the empty one; log entry 3. -/
def State.reset : State where
  regs := Vector.replicate 8 0
  pc := 0
  mem := []
  loadedCount := 0
  halted := false
  cause := .none
  faultInfo := Option.none
  steps := 0
  trace := []

end Sys2Proof.Machine
end

