-- ==== Sys2Proof/Machine/Ops.lean ====
section
/-! DEFINITION. The named operations over registers, memory, trace and control state, among them raising a condition (R13, R167)
and steps 7 to 9 of the cycle (R107 to R109). There is no return from a condition (R169), so none stands beside `State.raise`. -/

namespace Sys2Proof.Machine

/-- `mem[a]` of R12, 0 where nothing is listed (R30). -/
def Memory.read : Memory → Nat → Word
  | [], _ => 0
  | (b, w) :: m, a => if a = b then w else Memory.read m a

/-- Put a cell before the first cell of a greater address. -/
def Memory.insertCell (a : Nat) (v : Word) : Memory → Memory
  | [] => [(a, v)]
  | (b, w) :: m => if a < b then (a, v) :: (b, w) :: m else (b, w) :: Memory.insertCell a v m

/-- The memory with no cell at `a`. -/
def Memory.drop (m : Memory) (a : Nat) : Memory := m.filter (fun c => c.1 ≠ a)

/-- `mem[a] <- v` of R12: the old cell goes, a new one comes unless `v` is what an unlisted address reads as. -/
def Memory.write (m : Memory) (a : Nat) (v : Word) : Memory :=
  if v = 0 then m.drop a else Memory.insertCell a v (m.drop a)

/-- The canonical form: addresses strictly rising, below the capacity, and no word 0. -/
abbrev Memory.wf (m : Memory) : Prop :=
  m.Pairwise (fun c d => c.1 < d.1) ∧ ∀ c ∈ m, c.1 < Config.memCapacity ∧ c.2 ≠ 0

/-- `x[i]` (R11). -/
def State.readReg (s : State) (i : RegIdx) : Word := s.regs.get i

/-- `x[i] <- v` (R11): a write to `x[0]` is made like any other, and undone by `State.forceZero`. -/
def State.writeReg (s : State) (i : RegIdx) (v : Word) : State := { s with regs := s.regs.set i.val v i.isLt }

/-- `MemRead(a, 1)` (R12). -/
def State.loadWord (s : State) (a : Nat) : Word := s.mem.read a

/-- `MemWrite(a, 1, v)` (R12). -/
def State.storeWord (s : State) (a : Nat) (v : Word) : State := { s with mem := s.mem.write a v }

/-- `pc <- v` (R14). -/
def State.setPc (s : State) (v : Int) : State := { s with pc := v }

/-- The snapshot record of the current state (R37): the loaded region only. -/
def State.snapshot (s : State) : Snapshot where
  pc := s.pc
  mem := (List.range s.loadedCount).map s.loadWord
  regs := s.regs

/-- `emit Snapshot` (R15). -/
def State.emit (s : State) : State := { s with trace := s.trace ++ [s.snapshot] }

/-- `steps <- steps + 1` (R102). -/
def State.countCycle (s : State) : State := { s with steps := s.steps + 1 }

/-- `raise c(info)` (R13), also the two assignments of `halt` (R151): the caller leaves out the instruction's writes and
runs the rest of the cycle as R102, R103 and R109 say. -/
def State.raise (s : State) (c : Cause) (info : Option Word) : State :=
  { s with halted := true, cause := c, faultInfo := info }

/-- A condition that ends the cycle where it is raised, in step 2 or step 3: raise, final snapshot, stop (R102, R103, R167). -/
def State.stopWith (s : State) (c : Cause) (info : Option Word) : State := (s.raise c info).emit

/-- Step 7 of the cycle: `x[0] <- 0` (R107). -/
def State.forceZero (s : State) : State := s.writeReg 0 0

/-- Step 9 of the cycle: one more snapshot if the machine halted (R109). -/
def State.emitIfHalted (s : State) : State := if s.halted then s.emit else s

/-- Steps 7 to 9 of the cycle, common to every instruction that reached step 6 (R107, R108, R109). -/
def State.finish (s : State) (nextPc : Int) : State := (s.forceZero.setPc nextPc).emitIfHalted

/-- The numeric code of a cause (R33, D10); no rule computes with it. -/
def Cause.code : Cause → Nat
  | .none => 0
  | .haltInstruction => 1
  | .invalidFetchAddress => 2
  | .outOfBoundsMemoryAccess => 3
  | .unknownOpcode => 4
  | .stepLimitExceeded => 5

end Sys2Proof.Machine
end

