-- ==== Sys2Proof/Machine/Flags.lean ====
section
/-! DEFINITION. The arithmetic of the machine (R123). There are no flags and no condition codes (R27): no operation here
records a carry, an overflow, a zero or a sign, and the one comparison is made by `beq` itself. -/

namespace Sys2Proof.Machine

/-- `wrap32(s(a) + s(b))`, without a trap (R121). -/
def addWords (a b : Word) : Word := wrap32 (a.toInt + b.toInt)

/-- `NOT(a AND b)` (R122). -/
def nandWords (a b : Word) : Word := ~~~(a &&& b)

/-- Equality of all 32 bits, the condition of `beq` (R16, R141). -/
def equalWords (a b : Word) : Bool := decide (a = b)

end Sys2Proof.Machine
end

