-- ==== Sys2Proof/Machine/Operands.lean ====
section
/-! DEFINITION. Operand forms: the one addressing mode and its bounds check (R130), and the three ways to a next pc (R25). -/

namespace Sys2Proof.Machine

/-- `addr <- wrap32(s(x[rs]) + imm32)` (R130, D11). -/
def State.effectiveAddr (s : State) (rs : RegIdx) (imm : Int) : Word := wrap32 ((s.readReg rs).toInt + imm)

/-- The data bound: `0 <= addr < 65536`, the capacity and never `loaded_count` (R52, R130). -/
def inCapacity (addr : Word) : Bool := decide (0 ≤ addr.toInt) && decide (addr.toInt < Config.memCapacity)

/-- The word index of an address in bounds. -/
def wordIndex (addr : Word) : Nat := addr.toInt.toNat

/-- The default successor `pc + 1` (R105). -/
def State.successor (s : State) : Int := s.pc + 1

/-- The target of a taken `beq`: `pc + 1 + imm32` (R141). -/
def State.branchTarget (s : State) (imm : Int) : Int := s.pc + 1 + imm

/-- The link value of `jalr`: `pc + 1` as a Word (R142). -/
def State.linkWord (s : State) : Word := wrap32 (s.pc + 1)

/-- The target of `jalr`: the whole signed value of `x[rs]` (R142). -/
def State.jumpTarget (s : State) (rs : RegIdx) : Int := (s.readReg rs).toInt

end Sys2Proof.Machine
end

