-- ==== Sys2Proof/Machine/Arithmetic.lean ====
section
/-! DEFINITION. `add` and `nand` (41_arithmetic.md): steps 5 to 9 of the cycle for each. -/

namespace Sys2Proof.Machine

/-- R121. -/
def execAdd (rs rt rd : RegIdx) (s : State) : Host.Outcome State Fault Refusal :=
  .next ((s.writeReg rd (addWords (s.readReg rs) (s.readReg rt))).finish s.successor)

/-- R122. -/
def execNand (rs rt rd : RegIdx) (s : State) : Host.Outcome State Fault Refusal :=
  .next ((s.writeReg rd (nandWords (s.readReg rs) (s.readReg rt))).finish s.successor)

end Sys2Proof.Machine
end

