-- ==== Sys2Proof/Machine/Control.lean ====
section
/-! DEFINITION. `beq` and `jalr` (43_control_transfer.md): steps 5 to 9 of the cycle for each. No target is checked here (R140). -/

namespace Sys2Proof.Machine

/-- R141. -/
def execBeq (rs rt : RegIdx) (imm : Int) (s : State) : Host.Outcome State Fault Refusal :=
  if equalWords (s.readReg rs) (s.readReg rt) then .next (s.finish (s.branchTarget imm))
  else .next (s.finish s.successor)

/-- R142: target and link value are taken from the state before the write, also when `rs = rt` (D8, log entry 7). -/
def execJalr (rs rt : RegIdx) (s : State) : Host.Outcome State Fault Refusal :=
  .next ((s.writeReg rt s.linkWord).finish (s.jumpTarget rs))

end Sys2Proof.Machine
end

