-- ==== Sys2Proof/Machine/LoadStore.lean ====
section
/-! DEFINITION. `lw` and `sw` (42_load_store.md): steps 5 to 9 of the cycle for each. -/

namespace Sys2Proof.Machine

/-- The out-of-bounds path of R130: the condition is raised in step 6, no write is made, and steps 7 to 9 run (R108, D6). -/
def State.outOfBounds (s : State) (addr : Word) : State :=
  (s.raise .outOfBoundsMemoryAccess (some addr)).finish s.successor

/-- R131. -/
def execLw (rs rt : RegIdx) (imm : Int) (s : State) : Host.Outcome State Fault Refusal :=
  let addr := s.effectiveAddr rs imm
  if inCapacity addr then .next ((s.writeReg rt (s.loadWord (wordIndex addr))).finish s.successor)
  else .next (s.outOfBounds addr)

/-- R132. -/
def execSw (rs rt : RegIdx) (imm : Int) (s : State) : Host.Outcome State Fault Refusal :=
  let addr := s.effectiveAddr rs imm
  if inCapacity addr then .next ((s.storeWord (wordIndex addr) (s.readReg rt)).finish s.successor)
  else .next (s.outOfBounds addr)

end Sys2Proof.Machine
end

