-- ==== Sys2Proof/Machine/System.lean ====
section
/-! DEFINITION. `halt` and `noop` (44_system.md): steps 5 to 9 of the cycle for each. -/

namespace Sys2Proof.Machine

/-- R151: the normal end; the pc still commits `pc + 1` (R108, D7, log entry 8). -/
def execHalt (s : State) : Host.Outcome State Fault Refusal :=
  .next ((s.raise .haltInstruction none).finish s.successor)

/-- R152: no effect beyond the cycle's own steps. -/
def execNoop (s : State) : Host.Outcome State Fault Refusal :=
  .next (s.finish s.successor)

end Sys2Proof.Machine
end

