-- ==== Sys2Proof/Machine/Dispatch.lean ====
section
/-! DEFINITION. Steps 5 to 9 of the cycle for the decoded instruction: the dispatch of R106, one arm per constructor. -/

namespace Sys2Proof.Machine

def exec (i : Instr) (s : State) : Host.Outcome State Fault Refusal :=
  match i with
  | .add rs rt rd => Sys2Proof.Machine.execAdd rs rt rd s
  | .nand rs rt rd => Sys2Proof.Machine.execNand rs rt rd s
  | .lw rs rt imm => Sys2Proof.Machine.execLw rs rt imm s
  | .sw rs rt imm => Sys2Proof.Machine.execSw rs rt imm s
  | .beq rs rt imm => Sys2Proof.Machine.execBeq rs rt imm s
  | .jalr rs rt => Sys2Proof.Machine.execJalr rs rt s
  | .halt => Sys2Proof.Machine.execHalt s
  | .noop => Sys2Proof.Machine.execNoop s

end Sys2Proof.Machine
end

