-- ==== Sys2Proof/Machine/Cycle.lean ====
section
/-! DEFINITION. One cycle of the engine (40_engine_cycle.md R100): steps 1 to 4, then `exec` for steps 5 to 9; the step limit is an argument. -/

namespace Sys2Proof.Machine

/-- The comparison of step 2, on the counter already incremented; no limit is never exceeded (R102, D5). -/
def limitExceeded (limit : Option Nat) (s : State) : Bool :=
  match limit with
  | none => false
  | some l => decide (l < s.steps)

/-- The check of step 3: `0 <= pc < loaded_count`, never the capacity (R103, R52). -/
def State.fetchable (s : State) : Bool := decide (0 ≤ s.pc) && decide (s.pc < s.loadedCount)

/-- Step 4: the word at the pc, read at the moment of the fetch (R104, R62). -/
def State.fetch (s : State) : Word := s.loadWord s.pc.toNat

/-- One cycle, from a Running state to the state after step 9 or after the `stop` of step 2 or 3 (R100); in the Halted
state no step is enabled (R110, R171). The checks are made in the order of R166. -/
def cycle (limit : Option Nat) (s : State) : Host.Outcome State Fault Refusal :=
  if s.halted then .fault (.halted s.cause s.faultInfo)
  else
    let s1 := s.emit.countCycle
    if limitExceeded limit s1 then .next (s1.stopWith .stepLimitExceeded none)
    else if s1.fetchable then exec (decode s1.fetch) s1
    else .next (s1.stopWith .invalidFetchAddress (some (wrap32 s1.pc)))

/-- The contract of the load interface (R190, R191): `count` words, at most the capacity, each a signed 32-bit integer. -/
def imageInContract (image : List Int) (count : Nat) : Bool :=
  decide (image.length = count) && decide (count ≤ Config.memCapacity)
    && image.all (fun v => decide (-2147483648 ≤ v) && decide (v ≤ 2147483647))

/-- The memory that holds `ws` from address `base` on, in canonical form. -/
def Memory.ofWords : Nat → List Word → Memory
  | _, [] => []
  | base, w :: ws => if w = 0 then Memory.ofWords (base + 1) ws else (base, w) :: Memory.ofWords (base + 1) ws

/-- `reset(image, loaded_count)` (R190): the start of a run; input outside the contract is refused (R191, D12). -/
def launch (image : List Int) (count : Nat) : Host.Outcome State Fault Refusal :=
  if imageInContract image count then
    .next { State.reset with mem := Memory.ofWords 0 (image.map wrap32), loadedCount := count }
  else .refused .imageOutsideContract

/-- The word `w` placed at the pc and inside the loaded region; a state whose pc is no memory address stays as it is. -/
def State.placeAtPc (s : State) (w : Word) : State :=
  if 0 ≤ s.pc ∧ s.pc < Config.memCapacity then
    { s.storeWord s.pc.toNat w with loadedCount := max s.loadedCount (s.pc.toNat + 1) }
  else s

end Sys2Proof.Machine
end

