-- ==== Sys2Proof/Machine/Step.lean ====
section
/-! DEFINITION. The machine's step: one cycle (R100) under the default step limit; and the placing of an instruction for the host's questions. -/

namespace Sys2Proof.Machine

def step (s : State) : Host.Outcome State Fault Refusal := cycle Config.stepLimit s

/-- Stands for the load of a program (log entry 3): the word goes where the next fetch reads, and `loaded_count` covers it. -/
def State.withFetchWord (s : State) (nbits w : Nat) : State := s.placeAtPc (tableWord nbits w)

end Sys2Proof.Machine
end

