-- ==== Sys2Proof/Safety.lean ====
section
/-! DEFINITION. What the claims speak of: the ends of a run (92_eei_decisions.md D17), the invariants of 10_state.md R38, R26, R35 and R37,
and what a cycle leaves unchanged (its frame). -/

namespace Sys2Proof.Machine

/-- The normal end of a run (R169, D17). -/
def State.NormalEnd (s : State) : Prop := s.halted = true ∧ s.cause = .haltInstruction

/-- A faulted end: Halted by one of the four fatal conditions; no postcondition holds of it by default (D17). -/
def State.FaultedEnd (s : State) : Prop := s.halted = true ∧ s.cause ≠ .haltInstruction

/-- What holds of the state between cycles (R38), with the pc's range (R26), what `fault_info` goes with (R34), the condition
that is never raised (R164), and the canonical form of the memory (the model's own). -/
structure Inv (s : State) : Prop where
  regZero : s.readReg 0 = 0
  memCanonical : s.mem.wf
  loaded : s.loadedCount ≤ Config.memCapacity
  causeRunning : s.cause = .none ↔ s.halted = false
  info : s.faultInfo.isSome = true ↔ s.cause = .invalidFetchAddress ∨ s.cause = .outOfBoundsMemoryAccess
  known : s.cause ≠ .unknownOpcode
  pcLow : -2147483648 ≤ s.pc
  pcHigh : s.pc ≤ 2147483647

/-- What holds of the output trace between cycles (R37, R101, R109, R112): one snapshot for every cycle started and one more once
Halted; every snapshot shows `x[0] = 0` and the loaded region. -/
structure TraceInv (s : State) : Prop where
  count : s.trace.length = s.steps + (if s.halted then 1 else 0)
  shown : ∀ p ∈ s.trace, p.regs.get 0 = 0 ∧ p.mem.length = s.loadedCount

/-- The bound of R35: at most the limit while Running, at most one more once Halted. -/
def StepsWithin (limit : Option Nat) (s : State) : Prop :=
  ∀ l, limit = some l → s.steps ≤ l + (if s.halted then 1 else 0)

/-- The registers after an executed instruction that writes `v` to `x[rd]`: `x[0]` is 0 whatever was written (R107). -/
def RegsWrite (rd : RegIdx) (v : Word) (s t : State) : Prop :=
  ∀ r, t.readReg r = if r = 0 then 0 else if r = rd then v else s.readReg r

/-- The registers after an executed instruction that writes none (R107). -/
def RegsKept (s t : State) : Prop := ∀ r, t.readReg r = if r = 0 then 0 else s.readReg r

/-- No word of memory differs. -/
def MemKept (s t : State) : Prop := ∀ a, t.mem.read a = s.mem.read a

/-- The word at `a` is `v`, and no other word of memory differs. -/
def MemStored (a : Nat) (v : Word) (s t : State) : Prop := ∀ b, t.mem.read b = if b = a then v else s.mem.read b

/-- The engine's own state is as it was: the machine goes on, and no snapshot was emitted. -/
def EngineKept (s t : State) : Prop :=
  t.loadedCount = s.loadedCount ∧ t.halted = s.halted ∧ t.cause = s.cause ∧ t.faultInfo = s.faultInfo ∧
    t.steps = s.steps ∧ t.trace = s.trace

/-- The machine halted with this outcome, its final snapshot emitted (R109, R170). -/
def EngineEnded (c : Cause) (info : Option Word) (s t : State) : Prop :=
  t.loadedCount = s.loadedCount ∧ t.halted = true ∧ t.cause = c ∧ t.faultInfo = info ∧
    t.steps = s.steps ∧ t.trace = s.trace ++ [t.snapshot]

end Sys2Proof.Machine
end

