-- ==== Sys2Proof/Certificates/Slice0/Obligations.lean ====
section
/-! DEFINITION. The statements for the provers; each docstring names the rule of spec/ it formalises. -/

open Sys2Proof Sys2Proof.Machine

/-! ### The Decoder -/

/-- R79 against R71: the Decoder reads back every well-formed instruction from its canonical word. -/
def Obligations.DecodeOfEncode : Prop :=
  ∀ i : Instr, i.WellFormed → decode (encode i) = i

/-- 95_test_vectors.md 2.1: words with their instructions, unused bits set in some of them (R76, R78). -/
def Obligations.SpecWordsDecode : Prop :=
  decode 0x00000005 = .add 0 0 5 ∧ decode 0x0009FFFA = .add 1 1 2 ∧ decode 0x004A0003 = .nand 1 2 3 ∧
    decode 0x00810007 = .lw 0 1 7 ∧ decode 0x00C4000A = .sw 0 4 10 ∧ decode 0x0100FFFD = .beq 0 0 (-3) ∧
    decode 0x0155AAAA = .jalr 2 5 ∧ decode 0x7F800000 = .halt ∧ decode 0xFFFFFFFF = .noop

/-- R71: the six outputs of the Decoder, as arithmetic on the unsigned view of the word. -/
def Obligations.DecoderOutputs : Prop :=
  ∀ w : Word,
    (decodeFields w).opcode.val = w.toNat / 2 ^ 22 % 8 ∧ (decodeFields w).rs.val = w.toNat / 2 ^ 19 % 8 ∧
      (decodeFields w).rt.val = w.toNat / 2 ^ 16 % 8 ∧ (decodeFields w).rd.val = w.toNat % 8 ∧
      (decodeFields w).imm16.toNat = w.toNat % 65536 ∧
      (decodeFields w).rd.val = (decodeFields w).imm16.toNat % 8 ∧
      (decodeFields w).imm32 = sext16 (decodeFields w).imm16.toNat

/-- R72: the value of the sign-extended immediate, its range, its 32-bit pattern, and that `lw`/`sw` and `beq` add it
unscaled. -/
def Obligations.ImmediateIsSignExtended : Prop :=
  ∀ w : Word,
    (decodeFields w).imm32 =
        (if w.getLsbD 15 then ((decodeFields w).imm16.toNat : Int) - 65536 else ((decodeFields w).imm16.toNat : Int)) ∧
      -32768 ≤ (decodeFields w).imm32 ∧ (decodeFields w).imm32 ≤ 32767 ∧
      (∀ k, k < 32 → (wrap32 (decodeFields w).imm32).getLsbD k = if k < 16 then w.getLsbD k else w.getLsbD 15) ∧
      ∀ (s : State) (rs : RegIdx),
        s.effectiveAddr rs (decodeFields w).imm32 = wrap32 ((s.readReg rs).toInt + (decodeFields w).imm32) ∧
          s.branchTarget (decodeFields w).imm32 = s.pc + 1 + (decodeFields w).imm32

/-- R77: the opcode map, row by row over match and mask, and that the eight rows cover every word. -/
def Obligations.OpcodeSelectsInstruction : Prop :=
  ∀ w : Word,
    (w &&& 0x01C00000 = 0x00000000 →
        decode w = .add (decodeFields w).rs (decodeFields w).rt (decodeFields w).rd) ∧
      (w &&& 0x01C00000 = 0x00400000 →
        decode w = .nand (decodeFields w).rs (decodeFields w).rt (decodeFields w).rd) ∧
      (w &&& 0x01C00000 = 0x00800000 →
        decode w = .lw (decodeFields w).rs (decodeFields w).rt (decodeFields w).imm32) ∧
      (w &&& 0x01C00000 = 0x00C00000 →
        decode w = .sw (decodeFields w).rs (decodeFields w).rt (decodeFields w).imm32) ∧
      (w &&& 0x01C00000 = 0x01000000 →
        decode w = .beq (decodeFields w).rs (decodeFields w).rt (decodeFields w).imm32) ∧
      (w &&& 0x01C00000 = 0x01400000 → decode w = .jalr (decodeFields w).rs (decodeFields w).rt) ∧
      (w &&& 0x01C00000 = 0x01800000 → decode w = .halt) ∧
      (w &&& 0x01C00000 = 0x01C00000 → decode w = .noop) ∧
      w &&& 0x01C00000 ∈ [(0x00000000 : Word), 0x00400000, 0x00800000, 0x00C00000, 0x01000000, 0x01400000, 0x01800000,
        0x01C00000]

/-- Words that agree on the bits their format uses decode alike, whatever their unused bits: the spec's own inference and
decision D3 (30_encoding.md section 2), log entry 9. -/
def Obligations.UnusedBitsIgnored : Prop :=
  ∀ w v : Word,
    (bits 24 0 w = bits 24 0 v → decode w = decode v) ∧
      (bits 24 22 w = 0 ∨ bits 24 22 w = 1 →
        bits 24 16 w = bits 24 16 v → bits 2 0 w = bits 2 0 v → decode w = decode v) ∧
      (bits 24 22 w = 5 → bits 24 16 w = bits 24 16 v → decode w = decode v) ∧
      (bits 24 22 w = 6 ∨ bits 24 22 w = 7 → bits 24 22 w = bits 24 22 v → decode w = decode v)

/-- R72, R73: every one of the 2^32 words decodes to an instruction the machine has. -/
def Obligations.EveryWordDecodesWellFormed : Prop :=
  ∀ w : Word, (decode w).WellFormed

/-! ### The eight instructions: encoding, result, frame, completion -/

/-- R121. While Running (R100), `add` completes: the wrapped signed sum goes to `x[rd]`, and nothing else but the pc changes. -/
def Obligations.AddWritesWrappedSum : Prop :=
  (∀ rs rt rd : RegIdx, (encode (.add rs rt rd)).toNat = rs.val * 2 ^ 19 + rt.val * 2 ^ 16 + rd.val) ∧
    ∀ (s : State) (rs rt rd : RegIdx), s.halted = false →
      ∃ t, exec (.add rs rt rd) s = .next t ∧
        RegsWrite rd (wrap32 ((s.readReg rs).toInt + (s.readReg rt).toInt)) s t ∧
        MemKept s t ∧ t.pc = s.pc + 1 ∧ EngineKept s t

/-- R121, R123: the sum is congruent to the exact sum modulo 2^32, and the unsigned view gives the same bits. -/
def Obligations.AddHasNoSignedness : Prop :=
  ∀ (s t : State) (rs rt rd : RegIdx), exec (.add rs rt rd) s = .next t →
    ∃ v : Word, t.readReg rd = (if rd = 0 then 0 else v) ∧
      v = BitVec.ofNat 32 ((s.readReg rs).toNat + (s.readReg rt).toNat) ∧
      v.toInt % 2 ^ 32 = ((s.readReg rs).toInt + (s.readReg rt).toInt) % 2 ^ 32

/-- R122. While Running, `nand` completes: result bit k is 1 - a_k * b_k, the result goes to `x[rd]`, and nothing else but
the pc changes. -/
def Obligations.NandWritesNotAnd : Prop :=
  (∀ rs rt rd : RegIdx,
      (encode (.nand rs rt rd)).toNat = 2 ^ 22 + rs.val * 2 ^ 19 + rt.val * 2 ^ 16 + rd.val) ∧
    ∀ (s : State) (rs rt rd : RegIdx), s.halted = false →
      ∃ (t : State) (v : Word), exec (.nand rs rt rd) s = .next t ∧
        (∀ k, k < 32 → v.getLsbD k = !((s.readReg rs).getLsbD k && (s.readReg rt).getLsbD k)) ∧
        v.toInt = -(s.readReg rs &&& s.readReg rt).toInt - 1 ∧
        RegsWrite rd v s t ∧ MemKept s t ∧ t.pc = s.pc + 1 ∧ EngineKept s t

/-- R131. `lw` in bounds completes with the loaded word in `x[rt]` and nothing else changed but the pc; out of bounds it raises
OutOfBoundsMemoryAccess with the address and writes no register and no memory. The address is R131's wrapped sum (D11, log
entry 10). -/
def Obligations.LwLoadsOrFaults : Prop :=
  (∀ (rs rt : RegIdx) (imm : Int),
      ((encode (.lw rs rt imm)).toNat : Int) = 2 * 2 ^ 22 + rs.val * 2 ^ 19 + rt.val * 2 ^ 16 + imm % 65536) ∧
    (∀ (s : State) (rs rt : RegIdx) (imm : Int), s.halted = false →
      0 ≤ (s.effectiveAddr rs imm).toInt → (s.effectiveAddr rs imm).toInt < 65536 →
      ∃ t, exec (.lw rs rt imm) s = .next t ∧
        RegsWrite rt (s.mem.read (s.effectiveAddr rs imm).toInt.toNat) s t ∧
        MemKept s t ∧ t.pc = s.pc + 1 ∧ EngineKept s t) ∧
    ∀ (s : State) (rs rt : RegIdx) (imm : Int), s.halted = false →
      ((s.effectiveAddr rs imm).toInt < 0 ∨ 65536 ≤ (s.effectiveAddr rs imm).toInt) →
      ∃ t, exec (.lw rs rt imm) s = .next t ∧ RegsKept s t ∧ MemKept s t ∧
        EngineEnded .outOfBoundsMemoryAccess (some (s.effectiveAddr rs imm)) s t

/-- R132. `sw` in bounds completes with `x[rt]` at the address and no other word of memory changed; out of bounds it raises
OutOfBoundsMemoryAccess with the address and stores nothing. The address is R132's wrapped sum (D11, log entry 10). -/
def Obligations.SwStoresOrFaults : Prop :=
  (∀ (rs rt : RegIdx) (imm : Int),
      ((encode (.sw rs rt imm)).toNat : Int) = 3 * 2 ^ 22 + rs.val * 2 ^ 19 + rt.val * 2 ^ 16 + imm % 65536) ∧
    (∀ (s : State) (rs rt : RegIdx) (imm : Int), s.halted = false →
      0 ≤ (s.effectiveAddr rs imm).toInt → (s.effectiveAddr rs imm).toInt < 65536 →
      ∃ t, exec (.sw rs rt imm) s = .next t ∧ RegsKept s t ∧
        MemStored (s.effectiveAddr rs imm).toInt.toNat (s.readReg rt) s t ∧
        t.pc = s.pc + 1 ∧ EngineKept s t) ∧
    ∀ (s : State) (rs rt : RegIdx) (imm : Int), s.halted = false →
      ((s.effectiveAddr rs imm).toInt < 0 ∨ 65536 ≤ (s.effectiveAddr rs imm).toInt) →
      ∃ t, exec (.sw rs rt imm) s = .next t ∧ RegsKept s t ∧ MemKept s t ∧
        EngineEnded .outOfBoundsMemoryAccess (some (s.effectiveAddr rs imm)) s t

/-- The final state of a faulted `lw` or `sw`: steps 7 to 9 still run, so the pc is the instruction's address plus 1 and the
final snapshot shows it. This is the spec's own decision D6 (40_engine_cycle.md section 1), log entry 8. -/
def Obligations.OutOfBoundsCommitsThePc : Prop :=
  ∀ (i : Instr) (s : State) (rs rt : RegIdx) (imm : Int), (i = .lw rs rt imm ∨ i = .sw rs rt imm) →
    inCapacity (s.effectiveAddr rs imm) = false →
    ∃ t, exec i s = .next t ∧ t.FaultedEnd ∧ t.pc = s.pc + 1 ∧ t.readReg 0 = 0 ∧ t.trace = s.trace ++ [t.snapshot]

/-- R141. While Running, `beq` completes: the pc goes to `pc + 1 + imm` when the registers are equal and to `pc + 1` otherwise,
and nothing else changes, whatever the target is (R140). -/
def Obligations.BeqBranchesWhenEqual : Prop :=
  (∀ (rs rt : RegIdx) (imm : Int),
      ((encode (.beq rs rt imm)).toNat : Int) = 4 * 2 ^ 22 + rs.val * 2 ^ 19 + rt.val * 2 ^ 16 + imm % 65536) ∧
    ∀ (s : State) (rs rt : RegIdx) (imm : Int), s.halted = false →
      ∃ t, exec (.beq rs rt imm) s = .next t ∧ RegsKept s t ∧ MemKept s t ∧ EngineKept s t ∧
        (s.readReg rs = s.readReg rt → t.pc = s.pc + 1 + imm) ∧
        (s.readReg rs ≠ s.readReg rt → t.pc = s.pc + 1)

/-- R142. While Running, `jalr` completes: the link `pc + 1` goes to `x[rt]`, the pc to the value `x[rs]` held before that
write (also when `rs = rt`, as the source directs: D8, log entry 7), and nothing else changes, whatever the target is. -/
def Obligations.JalrLinksAndJumps : Prop :=
  (∀ rs rt : RegIdx, (encode (.jalr rs rt)).toNat = 5 * 2 ^ 22 + rs.val * 2 ^ 19 + rt.val * 2 ^ 16) ∧
    ∀ (s : State) (rs rt : RegIdx), s.halted = false →
      ∃ t, exec (.jalr rs rt) s = .next t ∧ RegsWrite rt (wrap32 (s.pc + 1)) s t ∧ MemKept s t ∧
        t.pc = (s.readReg rs).toInt ∧ EngineKept s t

/-- R151. While Running, `halt` completes in the normal end: Halted with HaltInstruction, the pc at `pc + 1`, the final snapshot
emitted, no register and no memory word changed. R151 gives the final pc; 90_conflicts.md C1 settles it (D7, log entry 8). -/
def Obligations.HaltEndsTheRun : Prop :=
  encode .halt = 0x01800000 ∧
    ∀ s : State, s.halted = false →
      ∃ t, exec .halt s = .next t ∧ EngineEnded .haltInstruction none s t ∧ t.NormalEnd ∧
        RegsKept s t ∧ MemKept s t ∧ t.pc = s.pc + 1

/-- R152. While Running, `noop` completes and changes the pc only. -/
def Obligations.NoopOnlyAdvances : Prop :=
  encode .noop = 0x01C00000 ∧
    ∀ s : State, s.halted = false →
      ∃ t, exec .noop s = .next t ∧ RegsKept s t ∧ MemKept s t ∧ t.pc = s.pc + 1 ∧ EngineKept s t

/-- The bounds verdict of `lw` and `sw` is the one of the exact sum, and an address in bounds is the exact sum: the derivation
beside R130; that the sum wraps is the spec's decision D11, log entry 10. -/
def Obligations.WrapNeverChangesTheVerdict : Prop :=
  ∀ (s : State) (rs : RegIdx) (imm : Int), immInRange imm = true →
    (inCapacity (s.effectiveAddr rs imm) = true ↔
      0 ≤ (s.readReg rs).toInt + imm ∧ (s.readReg rs).toInt + imm < 65536) ∧
    (inCapacity (s.effectiveAddr rs imm) = true →
      (wordIndex (s.effectiveAddr rs imm) : Int) = (s.readReg rs).toInt + imm)

/-- R107: after step 7 `x[0]` is 0 whatever the instruction was, also in the snapshot of step 9. -/
def Obligations.RegisterZeroForced : Prop :=
  ∀ (i : Instr) (s t : State), exec i s = .next t →
    t.readReg 0 = 0 ∧ (t.trace = s.trace ∨ (t.trace = s.trace ++ [t.snapshot] ∧ t.snapshot.regs.get 0 = 0))

/-- R164: no instruction and no cycle raises UnknownOpcode. -/
def Obligations.UnknownOpcodeNeverRaised : Prop :=
  ∀ (limit : Option Nat) (s t : State), cycle limit s = .next t → s.cause ≠ .unknownOpcode → t.cause ≠ .unknownOpcode

/-! ### Memory -/

/-- R59: a load returns the value of the store before it to the same address, whatever registers and displacements name it;
`x[0]` as destination still reads 0. -/
def Obligations.LoadReturnsStoredWord : Prop :=
  ∀ (s t : State) (rs rt qs qt : RegIdx) (imm jmm : Int),
    inCapacity (s.effectiveAddr rs imm) = true → exec (.sw rs rt imm) s = .next t →
    t.effectiveAddr qs jmm = s.effectiveAddr rs imm →
    ∃ u, exec (.lw qs qt jmm) t = .next u ∧ u.readReg qt = if qt = 0 then 0 else s.readReg rt

/-- A store is seen by every later fetch of that address: the cycle that fetches there executes the stored word; the spec's own
inference of R62. -/
def Obligations.StoreSeenByFetch : Prop :=
  ∀ (s t u : State) (rs rt : RegIdx) (imm : Int),
    inCapacity (s.effectiveAddr rs imm) = true → exec (.sw rs rt imm) s = .next t →
    u.mem = t.mem → u.pc = (s.effectiveAddr rs imm).toInt → u.pc < u.loadedCount → u.halted = false →
    u.steps < 1000000 →
    step u = exec (decode (s.readReg rt)) { u with steps := u.steps + 1, trace := u.trace ++ [u.snapshot] }

/-- The spec's own inferences of R52 and R113: a store shows in the snapshot's memory list at its own place if it is below `loaded_count`, and nowhere
otherwise. -/
def Obligations.SnapshotShowsStoresBelowCount : Prop :=
  ∀ (s t : State) (rs rt : RegIdx) (imm : Int),
    inCapacity (s.effectiveAddr rs imm) = true → exec (.sw rs rt imm) s = .next t →
    t.snapshot.mem = s.snapshot.mem.set (wordIndex (s.effectiveAddr rs imm)) (s.readReg rt)

/-- R55, R56, R57 over the whole machine: a cycle changes a word of memory only by an `sw` in bounds, only at its address, and
to the stored value. -/
def Obligations.OnlySwChangesMemory : Prop :=
  ∀ (s t : State) (a : Nat), step s = .next t → t.mem.read a ≠ s.mem.read a →
    ∃ rs rt imm, s.fetchable = true ∧ decode s.fetch = .sw rs rt imm ∧
      inCapacity (s.effectiveAddr rs imm) = true ∧ a = wordIndex (s.effectiveAddr rs imm) ∧
      t.mem.read a = s.readReg rt

/-- R23 over the whole machine: a cycle changes a register other than `x[0]` only if the fetched instruction names it as its
destination; `lw` only in bounds. -/
def Obligations.OnlyDestinationChanges : Prop :=
  ∀ (s t : State) (r : RegIdx), step s = .next t → r ≠ 0 → t.readReg r ≠ s.readReg r →
    s.fetchable = true ∧
      ((∃ rs rt, decode s.fetch = .add rs rt r) ∨ (∃ rs rt, decode s.fetch = .nand rs rt r) ∨
        (∃ rs imm, decode s.fetch = .lw rs r imm ∧ inCapacity (s.effectiveAddr rs imm) = true) ∨
        ∃ rs, decode s.fetch = .jalr rs r)

/-- R29, R31, R35, R37: what an instruction does to registers, pc and memory does not depend on `loaded_count`, the step
counter, the trace or the halt record. -/
def Obligations.ExecIgnoresEngineState : Prop :=
  ∀ (i : Instr) (s s' t : State), s'.regs = s.regs → s'.pc = s.pc → s'.mem = s.mem → exec i s = .next t →
    ∃ t', exec i s' = .next t' ∧ t'.regs = t.regs ∧ t'.pc = t.pc ∧ t'.mem = t.mem

/-! ### The cycle -/

/-- R100, R104: a Running cycle inside the limit and the loaded region is `exec` of the decoded word at the pc, on the state
whose step counter and trace steps 1 and 2 have advanced; the limit 1,000,000 is the spec's D5, log entry 4. -/
def Obligations.StepRunsDecodedInstruction : Prop :=
  ∀ (s : State) (i : Instr), s.halted = false → s.steps < 1000000 → 0 ≤ s.pc → s.pc < s.loadedCount →
    decode (s.mem.read s.pc.toNat) = i →
    step s = exec i { s with steps := s.steps + 1, trace := s.trace ++ [s.snapshot] }

/-- R102: the step limit. Past it the cycle halts with StepLimitExceeded and changes nothing else but the counter and the trace,
wherever the pc points; below it, and when it is absent, it only counts. That the limit is a parameter which may be absent is
the spec's decision D5, log entry 4. -/
def Obligations.StepLimitStopsTheRun : Prop :=
  (∀ (l : Nat) (s : State), s.halted = false → l ≤ s.steps →
      cycle (some l) s = .next { s with halted := true, cause := .stepLimitExceeded, faultInfo := none,
                                        steps := s.steps + 1, trace := s.trace ++ [s.snapshot, s.snapshot] }) ∧
    (∀ (l : Nat) (s : State), s.steps < l → cycle (some l) s = cycle none s) ∧
    ∀ s t : State, cycle none s = .next t → t.steps = s.steps + 1 ∧
      (s.cause ≠ .stepLimitExceeded → t.cause ≠ .stepLimitExceeded)

/-- R103: a pc outside the loaded region halts the cycle with InvalidFetchAddress and the pc, both snapshots are emitted, and
pc, registers and memory stay as they were. `fault_info` is a Word (R34), the pc itself over the whole signed 32-bit range of R26;
outside that range, which no run reaches, it is narrowed (log entry 15). -/
def Obligations.InvalidFetchStopsTheRun : Prop :=
  ∀ (limit : Option Nat) (s : State), s.halted = false → (∀ l, limit = some l → s.steps < l) →
    (s.pc < 0 ∨ (s.loadedCount : Int) ≤ s.pc) →
    cycle limit s = .next { s with halted := true, cause := .invalidFetchAddress, faultInfo := some (wrap32 s.pc),
                                   steps := s.steps + 1, trace := s.trace ++ [s.snapshot, s.snapshot] } ∧
      (-2147483648 ≤ s.pc → s.pc ≤ 2147483647 → (wrap32 s.pc).toInt = s.pc)

/-- R110, R171: a cycle happens exactly in the Running state, it never refuses, and in the Halted state no step is enabled; that
the model answers this with its own fault, carrying the reported outcome, is log entry 6. -/
def Obligations.CycleExactlyWhileRunning : Prop :=
  ∀ (limit : Option Nat) (s : State),
    ((∃ t, cycle limit s = .next t) ↔ s.halted = false) ∧
      (s.halted = true → cycle limit s = .fault (.halted s.cause s.faultInfo))

/-- Which condition a cycle reports, in the order of the checks: the step limit, the fetch address, then the instruction; the
spec's own inference of R166 from R100. -/
def Obligations.ConditionPriority : Prop :=
  ∀ (l : Nat) (s t : State), cycle (some l) s = .next t →
    (l ≤ s.steps → t.cause = .stepLimitExceeded) ∧
      (s.steps < l → (s.pc < 0 ∨ (s.loadedCount : Int) ≤ s.pc) → t.cause = .invalidFetchAddress) ∧
      (s.steps < l → 0 ≤ s.pc → s.pc < s.loadedCount →
        t.cause = match decode (s.mem.read s.pc.toNat) with
          | .lw rs _ imm => if inCapacity (s.effectiveAddr rs imm) then s.cause else .outOfBoundsMemoryAccess
          | .sw rs _ imm => if inCapacity (s.effectiveAddr rs imm) then s.cause else .outOfBoundsMemoryAccess
          | .halt => .haltInstruction
          | .add _ _ _ => s.cause
          | .nand _ _ _ => s.cause
          | .beq _ _ _ => s.cause
          | .jalr _ _ => s.cause
          | .noop => s.cause)

/-- R162, and the spec's own inference of R140: a control transfer to a bad target completes, and the next cycle reports the bad pc with every register, the
link included, as the transfer left it. -/
def Obligations.BadTargetFaultsNextCycle : Prop :=
  ∀ (i : Instr) (s t : State), ((∃ rs rt imm, i = .beq rs rt imm) ∨ ∃ rs rt, i = .jalr rs rt) →
    s.halted = false → s.steps < 1000000 → exec i s = .next t → (t.pc < 0 ∨ (t.loadedCount : Int) ≤ t.pc) →
    t.halted = false ∧ ∃ u, step t = .next u ∧ u.halted = true ∧ u.cause = .invalidFetchAddress ∧
      u.faultInfo = some (wrap32 t.pc) ∧ u.pc = t.pc ∧ u.regs = t.regs ∧ u.mem = t.mem

/-- R101, R109: a cycle appends the snapshot of the state it found and, if it halted, the snapshot of the state it left. -/
def Obligations.SnapshotsOfEachCycle : Prop :=
  ∀ (limit : Option Nat) (s t : State), cycle limit s = .next t →
    t.trace = s.trace ++ [s.snapshot] ++ (if t.halted then [t.snapshot] else [])

/-- R31, R35: a cycle never changes `loaded_count` and always counts itself. -/
def Obligations.CycleCountsItself : Prop :=
  ∀ (limit : Option Nat) (s t : State), cycle limit s = .next t →
    t.loadedCount = s.loadedCount ∧ t.steps = s.steps + 1

/-! ### Reset and the invariants -/

/-- R39, R190: the state a run starts in, for every image inside the contract of R191. -/
def Obligations.LaunchGivesResetValues : Prop :=
  ∀ (image : List Int) (count : Nat), image.length = count → count ≤ 65536 →
    (∀ v ∈ image, -2147483648 ≤ v ∧ v ≤ 2147483647) →
    ∃ t, launch image count = .next t ∧ (∀ r, t.readReg r = 0) ∧ t.pc = 0 ∧
      (∀ a, (t.mem.read a).toInt = image.getD a 0) ∧ t.loadedCount = count ∧ t.halted = false ∧ t.cause = .none ∧
      t.faultInfo = none ∧ t.steps = 0 ∧ t.trace = []

/-- Input outside the contract is refused at launch: the spec's decision D12; the refusal's name is the model's (log entry 13). -/
def Obligations.LaunchRefusesOtherInput : Prop :=
  ∀ (image : List Int) (count : Nat),
    (image.length ≠ count ∨ 65536 < count ∨ ∃ v ∈ image, v < -2147483648 ∨ 2147483647 < v) →
    launch image count = .refused .imageOutsideContract

/-- The model's reset state is the launch of the empty image (log entry 3), and its first cycle raises InvalidFetchAddress with
address 0, as R191 says of a length of 0. -/
def Obligations.ResetIsTheEmptyLaunch : Prop :=
  launch [] 0 = .next State.reset ∧
    ∃ t, step State.reset = .next t ∧ t.halted = true ∧ t.cause = .invalidFetchAddress ∧ t.faultInfo = some 0 ∧
      t.steps = 1 ∧ t.trace = [State.reset.snapshot, State.reset.snapshot]

/-- The invariants hold at reset (R38, R39). -/
def Obligations.InvariantsAtReset : Prop :=
  Inv State.reset ∧ TraceInv State.reset ∧ ∀ limit, StepsWithin limit State.reset

/-- The invariants hold at the start of every run. -/
def Obligations.InvariantsAtLaunch : Prop :=
  ∀ (image : List Int) (count : Nat) (t : State), launch image count = .next t →
    Inv t ∧ TraceInv t ∧ ∀ limit, StepsWithin limit t

/-- R38, R26, R33, R34, R164: every cycle keeps the state invariant, whatever the step limit. The canonical form of memory is
the model's (log entry 1); the pc range and clauses (d), (e) of R38 are the spec's own. -/
def Obligations.StateInvariantKept : Prop :=
  ∀ (limit : Option Nat) (s t : State), Inv s → cycle limit s = .next t → Inv t

/-- R37, R38, R112: every cycle keeps the trace invariant: one snapshot a cycle, one more at the end, each with `x[0] = 0` and
exactly the loaded region. -/
def Obligations.TraceInvariantKept : Prop :=
  ∀ (limit : Option Nat) (s t : State), s.readReg 0 = 0 → TraceInv s → cycle limit s = .next t → TraceInv t

/-- R35: the step counter never exceeds `STEP_LIMIT + 1`, for every limit. -/
def Obligations.StepCounterBounded : Prop :=
  ∀ (limit : Option Nat) (s t : State), StepsWithin limit s → cycle limit s = .next t → StepsWithin limit t

/-- R110, R161: under the default limit (the spec's D5, log entry 4) every Running state reaches Halted, within the cycles the limit leaves it. -/
def Obligations.EveryRunHalts : Prop :=
  ∀ s : State, s.halted = false → s.steps ≤ 1000000 →
    ∃ (n : Nat) (t : State), n + s.steps ≤ 1000001 ∧ Host.Core.run Sys2Proof.core n s = .next t ∧ t.halted = true
end

