-- ==== Sys2Proof/Laws/Decode.lean ====
section
/-! SUPPORT. The fields of a word as plain arithmetic, the fields of a word built by `encodeWord`, and the range of a decoded immediate. -/

namespace Sys2Proof

theorem bits_field3 (lo : Nat) (w : Word) : bits (lo + 2) lo w = w.toNat / 2 ^ lo % 8 := by
  simp only [bits, show lo + 2 - lo + 1 = 3 by omega, Nat.reducePow]

theorem field3_val (lo : Nat) (w : Word) : (field3 lo w).val = w.toNat / 2 ^ lo % 8 := by
  simp [field3, bits_field3, Fin.ofNat]

theorem rawImm_toNat (w : Word) : (rawImm w).toNat = w.toNat % 65536 := by
  simp [rawImm, bits]

theorem sext16_range {v : Nat} (h : v < 65536) : -32768 ≤ sext16 v ∧ sext16 v ≤ 32767 := by
  unfold sext16
  split <;> omega

theorem imm32_inRange (w : Word) : immInRange (decodeFields w).imm32 = true := by
  have h := sext16_range (rawImm w).isLt
  simp [immInRange, decodeFields, h]

theorem encodeWord_toNat {op rs rt low : Nat} (h1 : op < 8) (h2 : rs < 8) (h3 : rt < 8) (h4 : low < 65536) :
    (encodeWord op rs rt low).toNat = op * 2 ^ 22 + rs * 2 ^ 19 + rt * 2 ^ 16 + low := by
  unfold encodeWord
  rw [BitVec.toNat_ofNat]
  exact Nat.mod_eq_of_lt (by omega)

theorem low16OfImm_lt (imm : Int) : low16OfImm imm < 65536 := by
  unfold low16OfImm
  omega

theorem sext16_low16OfImm {imm : Int} (h : immInRange imm = true) : sext16 (low16OfImm imm) = imm := by
  simp only [immInRange, Bool.and_eq_true, decide_eq_true_eq] at h
  unfold sext16 low16OfImm
  split <;> omega

end Sys2Proof
end

