-- ==== Sys2Proof/Laws/State.lean ====
section
/-! SUPPORT. One lemma per field per update of State, so that no later proof unfolds a record update; and what reading a
register or a snapshot gives after each update. -/

namespace Sys2Proof.Machine

@[simp] theorem State.writeReg_regs (s : State) (i : RegIdx) (v : Word) : (s.writeReg i v).regs = s.regs.set i.val v i.isLt := rfl
@[simp] theorem State.writeReg_pc (s : State) (i : RegIdx) (v : Word) : (s.writeReg i v).pc = s.pc := rfl
@[simp] theorem State.writeReg_mem (s : State) (i : RegIdx) (v : Word) : (s.writeReg i v).mem = s.mem := rfl
@[simp] theorem State.writeReg_loadedCount (s : State) (i : RegIdx) (v : Word) : (s.writeReg i v).loadedCount = s.loadedCount := rfl
@[simp] theorem State.writeReg_halted (s : State) (i : RegIdx) (v : Word) : (s.writeReg i v).halted = s.halted := rfl
@[simp] theorem State.writeReg_cause (s : State) (i : RegIdx) (v : Word) : (s.writeReg i v).cause = s.cause := rfl
@[simp] theorem State.writeReg_faultInfo (s : State) (i : RegIdx) (v : Word) : (s.writeReg i v).faultInfo = s.faultInfo := rfl
@[simp] theorem State.writeReg_steps (s : State) (i : RegIdx) (v : Word) : (s.writeReg i v).steps = s.steps := rfl
@[simp] theorem State.writeReg_trace (s : State) (i : RegIdx) (v : Word) : (s.writeReg i v).trace = s.trace := rfl

@[simp] theorem State.storeWord_regs (s : State) (a : Nat) (v : Word) : (s.storeWord a v).regs = s.regs := rfl
@[simp] theorem State.storeWord_pc (s : State) (a : Nat) (v : Word) : (s.storeWord a v).pc = s.pc := rfl
@[simp] theorem State.storeWord_mem (s : State) (a : Nat) (v : Word) : (s.storeWord a v).mem = s.mem.write a v := rfl
@[simp] theorem State.storeWord_loadedCount (s : State) (a : Nat) (v : Word) : (s.storeWord a v).loadedCount = s.loadedCount := rfl
@[simp] theorem State.storeWord_halted (s : State) (a : Nat) (v : Word) : (s.storeWord a v).halted = s.halted := rfl
@[simp] theorem State.storeWord_cause (s : State) (a : Nat) (v : Word) : (s.storeWord a v).cause = s.cause := rfl
@[simp] theorem State.storeWord_faultInfo (s : State) (a : Nat) (v : Word) : (s.storeWord a v).faultInfo = s.faultInfo := rfl
@[simp] theorem State.storeWord_steps (s : State) (a : Nat) (v : Word) : (s.storeWord a v).steps = s.steps := rfl
@[simp] theorem State.storeWord_trace (s : State) (a : Nat) (v : Word) : (s.storeWord a v).trace = s.trace := rfl

@[simp] theorem State.setPc_regs (s : State) (n : Int) : (s.setPc n).regs = s.regs := rfl
@[simp] theorem State.setPc_pc (s : State) (n : Int) : (s.setPc n).pc = n := rfl
@[simp] theorem State.setPc_mem (s : State) (n : Int) : (s.setPc n).mem = s.mem := rfl
@[simp] theorem State.setPc_loadedCount (s : State) (n : Int) : (s.setPc n).loadedCount = s.loadedCount := rfl
@[simp] theorem State.setPc_halted (s : State) (n : Int) : (s.setPc n).halted = s.halted := rfl
@[simp] theorem State.setPc_cause (s : State) (n : Int) : (s.setPc n).cause = s.cause := rfl
@[simp] theorem State.setPc_faultInfo (s : State) (n : Int) : (s.setPc n).faultInfo = s.faultInfo := rfl
@[simp] theorem State.setPc_steps (s : State) (n : Int) : (s.setPc n).steps = s.steps := rfl
@[simp] theorem State.setPc_trace (s : State) (n : Int) : (s.setPc n).trace = s.trace := rfl

@[simp] theorem State.emit_regs (s : State) : s.emit.regs = s.regs := rfl
@[simp] theorem State.emit_pc (s : State) : s.emit.pc = s.pc := rfl
@[simp] theorem State.emit_mem (s : State) : s.emit.mem = s.mem := rfl
@[simp] theorem State.emit_loadedCount (s : State) : s.emit.loadedCount = s.loadedCount := rfl
@[simp] theorem State.emit_halted (s : State) : s.emit.halted = s.halted := rfl
@[simp] theorem State.emit_cause (s : State) : s.emit.cause = s.cause := rfl
@[simp] theorem State.emit_faultInfo (s : State) : s.emit.faultInfo = s.faultInfo := rfl
@[simp] theorem State.emit_steps (s : State) : s.emit.steps = s.steps := rfl
@[simp] theorem State.emit_trace (s : State) : s.emit.trace = s.trace ++ [s.snapshot] := rfl

@[simp] theorem State.countCycle_regs (s : State) : s.countCycle.regs = s.regs := rfl
@[simp] theorem State.countCycle_pc (s : State) : s.countCycle.pc = s.pc := rfl
@[simp] theorem State.countCycle_mem (s : State) : s.countCycle.mem = s.mem := rfl
@[simp] theorem State.countCycle_loadedCount (s : State) : s.countCycle.loadedCount = s.loadedCount := rfl
@[simp] theorem State.countCycle_halted (s : State) : s.countCycle.halted = s.halted := rfl
@[simp] theorem State.countCycle_cause (s : State) : s.countCycle.cause = s.cause := rfl
@[simp] theorem State.countCycle_faultInfo (s : State) : s.countCycle.faultInfo = s.faultInfo := rfl
@[simp] theorem State.countCycle_steps (s : State) : s.countCycle.steps = s.steps + 1 := rfl
@[simp] theorem State.countCycle_trace (s : State) : s.countCycle.trace = s.trace := rfl

@[simp] theorem State.raise_regs (s : State) (c : Cause) (info : Option Word) : (s.raise c info).regs = s.regs := rfl
@[simp] theorem State.raise_pc (s : State) (c : Cause) (info : Option Word) : (s.raise c info).pc = s.pc := rfl
@[simp] theorem State.raise_mem (s : State) (c : Cause) (info : Option Word) : (s.raise c info).mem = s.mem := rfl
@[simp] theorem State.raise_loadedCount (s : State) (c : Cause) (info : Option Word) : (s.raise c info).loadedCount = s.loadedCount := rfl
@[simp] theorem State.raise_halted (s : State) (c : Cause) (info : Option Word) : (s.raise c info).halted = true := rfl
@[simp] theorem State.raise_cause (s : State) (c : Cause) (info : Option Word) : (s.raise c info).cause = c := rfl
@[simp] theorem State.raise_faultInfo (s : State) (c : Cause) (info : Option Word) : (s.raise c info).faultInfo = info := rfl
@[simp] theorem State.raise_steps (s : State) (c : Cause) (info : Option Word) : (s.raise c info).steps = s.steps := rfl
@[simp] theorem State.raise_trace (s : State) (c : Cause) (info : Option Word) : (s.raise c info).trace = s.trace := rfl

@[simp] theorem State.stopWith_regs (s : State) (c : Cause) (info : Option Word) : (s.stopWith c info).regs = s.regs := rfl
@[simp] theorem State.stopWith_pc (s : State) (c : Cause) (info : Option Word) : (s.stopWith c info).pc = s.pc := rfl
@[simp] theorem State.stopWith_mem (s : State) (c : Cause) (info : Option Word) : (s.stopWith c info).mem = s.mem := rfl
@[simp] theorem State.stopWith_loadedCount (s : State) (c : Cause) (info : Option Word) : (s.stopWith c info).loadedCount = s.loadedCount := rfl
@[simp] theorem State.stopWith_halted (s : State) (c : Cause) (info : Option Word) : (s.stopWith c info).halted = true := rfl
@[simp] theorem State.stopWith_cause (s : State) (c : Cause) (info : Option Word) : (s.stopWith c info).cause = c := rfl
@[simp] theorem State.stopWith_faultInfo (s : State) (c : Cause) (info : Option Word) : (s.stopWith c info).faultInfo = info := rfl
@[simp] theorem State.stopWith_steps (s : State) (c : Cause) (info : Option Word) : (s.stopWith c info).steps = s.steps := rfl
@[simp] theorem State.stopWith_trace (s : State) (c : Cause) (info : Option Word) : (s.stopWith c info).trace = s.trace ++ [s.snapshot] := rfl

@[simp] theorem State.readReg_writeReg (s : State) (i r : RegIdx) (v : Word) :
    (s.writeReg i v).readReg r = if r = i then v else s.readReg r := by
  simp only [State.readReg, State.writeReg, Vector.get_eq_getElem, Vector.getElem_set, Fin.ext_iff, eq_comm]

@[simp] theorem State.readReg_storeWord (s : State) (a : Nat) (v : Word) (r : RegIdx) :
    (s.storeWord a v).readReg r = s.readReg r := rfl
@[simp] theorem State.readReg_setPc (s : State) (n : Int) (r : RegIdx) : (s.setPc n).readReg r = s.readReg r := rfl
@[simp] theorem State.readReg_emit (s : State) (r : RegIdx) : s.emit.readReg r = s.readReg r := rfl
@[simp] theorem State.readReg_countCycle (s : State) (r : RegIdx) : s.countCycle.readReg r = s.readReg r := rfl
@[simp] theorem State.readReg_raise (s : State) (c : Cause) (info : Option Word) (r : RegIdx) :
    (s.raise c info).readReg r = s.readReg r := rfl
@[simp] theorem State.readReg_stopWith (s : State) (c : Cause) (info : Option Word) (r : RegIdx) :
    (s.stopWith c info).readReg r = s.readReg r := rfl

@[simp] theorem State.snapshot_emit (s : State) : s.emit.snapshot = s.snapshot := rfl
@[simp] theorem State.snapshot_countCycle (s : State) : s.countCycle.snapshot = s.snapshot := rfl
@[simp] theorem State.snapshot_raise (s : State) (c : Cause) (info : Option Word) :
    (s.raise c info).snapshot = s.snapshot := rfl
@[simp] theorem State.snapshot_stopWith (s : State) (c : Cause) (info : Option Word) :
    (s.stopWith c info).snapshot = s.snapshot := rfl
@[simp] theorem State.snapshot_pc (s : State) : s.snapshot.pc = s.pc := rfl
@[simp] theorem State.snapshot_regs (s : State) : s.snapshot.regs = s.regs := rfl
@[simp] theorem State.snapshot_mem (s : State) : s.snapshot.mem = (List.range s.loadedCount).map s.loadWord := rfl
@[simp] theorem State.loadWord_eq (s : State) (a : Nat) : s.loadWord a = s.mem.read a := rfl

end Sys2Proof.Machine
end

