-- ==== Sys2Proof/Laws/Finish.lean ====
section
/-! SUPPORT. What steps 7 to 9 of the cycle do, field by field (R107, R108, R109). -/

namespace Sys2Proof.Machine

theorem State.finish_running {s : State} (h : s.halted = false) (n : Int) : s.finish n = s.forceZero.setPc n := by
  simp [State.finish, State.emitIfHalted, State.forceZero, h]

theorem State.finish_halted {s : State} (h : s.halted = true) (n : Int) : s.finish n = (s.forceZero.setPc n).emit := by
  simp [State.finish, State.emitIfHalted, State.forceZero, h]

@[simp] theorem State.finish_pc (s : State) (n : Int) : (s.finish n).pc = n := by
  cases h : s.halted
  · rw [State.finish_running h]; rfl
  · rw [State.finish_halted h]; rfl

@[simp] theorem State.finish_mem (s : State) (n : Int) : (s.finish n).mem = s.mem := by
  cases h : s.halted
  · rw [State.finish_running h]; rfl
  · rw [State.finish_halted h]; rfl

@[simp] theorem State.finish_regs (s : State) (n : Int) : (s.finish n).regs = s.regs.set 0 0 := by
  cases h : s.halted
  · rw [State.finish_running h]; rfl
  · rw [State.finish_halted h]; rfl

@[simp] theorem State.finish_loadedCount (s : State) (n : Int) : (s.finish n).loadedCount = s.loadedCount := by
  cases h : s.halted
  · rw [State.finish_running h]; rfl
  · rw [State.finish_halted h]; rfl

@[simp] theorem State.finish_halted_eq (s : State) (n : Int) : (s.finish n).halted = s.halted := by
  cases h : s.halted
  · rw [State.finish_running h]; exact h
  · rw [State.finish_halted h]; exact h

@[simp] theorem State.finish_cause (s : State) (n : Int) : (s.finish n).cause = s.cause := by
  cases h : s.halted
  · rw [State.finish_running h]; rfl
  · rw [State.finish_halted h]; rfl

@[simp] theorem State.finish_faultInfo (s : State) (n : Int) : (s.finish n).faultInfo = s.faultInfo := by
  cases h : s.halted
  · rw [State.finish_running h]; rfl
  · rw [State.finish_halted h]; rfl

@[simp] theorem State.finish_steps (s : State) (n : Int) : (s.finish n).steps = s.steps := by
  cases h : s.halted
  · rw [State.finish_running h]; rfl
  · rw [State.finish_halted h]; rfl

/-- Register 0 reads 0 after every executed instruction (R107). -/
@[simp] theorem State.readReg_finish (s : State) (n : Int) (r : RegIdx) :
    (s.finish n).readReg r = if r = 0 then 0 else s.readReg r := by
  cases h : s.halted
  · rw [State.finish_running h]; simp [State.forceZero]
  · rw [State.finish_halted h]; simp [State.forceZero]

/-- The final snapshot is emitted exactly when the machine halted, and shows the committed state (R109). -/
theorem State.finish_trace (s : State) (n : Int) :
    (s.finish n).trace = if s.halted then s.trace ++ [(s.finish n).snapshot] else s.trace := by
  cases h : s.halted
  · rw [State.finish_running h]; rfl
  · rw [State.finish_halted h]; rfl

end Sys2Proof.Machine
end

