-- ==== Sys2Proof/Laws/Memory.lean ====
section
/-! SUPPORT. What a read gives after each memory operation, and that each keeps the canonical form `Memory.wf`. -/

namespace Sys2Proof.Machine

@[simp] theorem Memory.read_nil (a : Nat) : Memory.read [] a = 0 := rfl

theorem Memory.read_insertCell (m : Memory) (a b : Nat) (v : Word) (h : ∀ c ∈ m, c.1 ≠ a) :
    (m.insertCell a v).read b = if b = a then v else m.read b := by
  induction m with
  | nil => rfl
  | cons c m ih =>
    have ih := ih fun d hd => h d (List.mem_cons_of_mem c hd)
    have hc : c.1 ≠ a := h c List.mem_cons_self
    by_cases hlt : a < c.1
    · simp [Memory.insertCell, Memory.read, hlt]
    · by_cases hb : b = c.1
      · simp [Memory.insertCell, Memory.read, hb, hc, hlt]
      · simp [Memory.insertCell, Memory.read, hb, hlt, ih]

theorem Memory.mem_drop {m : Memory} {a : Nat} {c : Nat × Word} : c ∈ m.drop a ↔ c ∈ m ∧ c.1 ≠ a := by
  simp [Memory.drop]

theorem Memory.read_drop (m : Memory) (a b : Nat) : (m.drop a).read b = if b = a then 0 else m.read b := by
  induction m with
  | nil => simp [Memory.drop]
  | cons c m ih =>
    unfold Memory.drop at ih ⊢
    by_cases hc : c.1 = a
    · by_cases hb : b = a
      · simpa [hc, hb] using ih
      · simpa [hc, hb, Memory.read] using ih
    · by_cases hb : b = c.1
      · simp [hc, hb, Memory.read]
      · simpa [hc, hb, Memory.read] using ih

/-- A read gives the value last written to its address, and a write leaves every other address alone (R56). -/
@[simp] theorem Memory.read_write (m : Memory) (a b : Nat) (v : Word) :
    (m.write a v).read b = if b = a then v else m.read b := by
  unfold Memory.write
  by_cases hv : v = 0
  · rw [if_pos hv, Memory.read_drop, hv]
  · rw [if_neg hv, Memory.read_insertCell _ _ _ _ fun c hc => (Memory.mem_drop.mp hc).2, Memory.read_drop]
    by_cases hb : b = a <;> simp [hb]

theorem Memory.mem_insertCell {m : Memory} {a : Nat} {v : Word} {c : Nat × Word} (h : c ∈ m.insertCell a v) :
    c = (a, v) ∨ c ∈ m := by
  induction m with
  | nil => simpa [Memory.insertCell] using h
  | cons d m ih =>
    by_cases hlt : a < d.1
    · simpa [Memory.insertCell, hlt] using h
    · rcases (by simpa [Memory.insertCell, hlt] using h : c = d ∨ c ∈ Memory.insertCell a v m) with rfl | h
      · exact .inr List.mem_cons_self
      · exact (ih h).imp_right (List.mem_cons_of_mem d)

theorem Memory.wf_drop {m : Memory} (h : m.wf) (a : Nat) : (m.drop a).wf :=
  ⟨h.1.filter _, fun c hc => h.2 c (Memory.mem_drop.mp hc).1⟩

theorem Memory.wf_insertCell {m : Memory} (h : m.wf) {a : Nat} {v : Word} (ha : a < Config.memCapacity) (hv : v ≠ 0)
    (hm : ∀ c ∈ m, c.1 ≠ a) : (m.insertCell a v).wf := by
  refine ⟨?_, fun c hc => ?_⟩
  · induction m with
    | nil => simp [Memory.insertCell]
    | cons d m ih =>
      obtain ⟨hd, hp⟩ := List.pairwise_cons.mp h.1
      have hda : d.1 ≠ a := hm d List.mem_cons_self
      by_cases hlt : a < d.1
      · simp only [Memory.insertCell, hlt, if_true]
        refine List.pairwise_cons.mpr ⟨fun c hc => ?_, h.1⟩
        rcases List.mem_cons.mp hc with rfl | hc
        · exact hlt
        · exact Nat.lt_trans hlt (hd c hc)
      · simp only [Memory.insertCell, hlt, if_false]
        refine List.pairwise_cons.mpr ⟨fun c hc => ?_,
          ih ⟨hp, fun c hc => h.2 c (List.mem_cons_of_mem d hc)⟩ fun c hc => hm c (List.mem_cons_of_mem d hc)⟩
        rcases Memory.mem_insertCell hc with rfl | hc
        · exact Nat.lt_of_le_of_ne (Nat.le_of_not_lt hlt) hda
        · exact hd c hc
  · rcases Memory.mem_insertCell hc with rfl | hc
    · exact ⟨ha, hv⟩
    · exact h.2 c hc

/-- A write inside the capacity keeps the canonical form. -/
theorem Memory.wf_write {m : Memory} (h : m.wf) {a : Nat} (ha : a < Config.memCapacity) (v : Word) : (m.write a v).wf := by
  unfold Memory.write
  by_cases hv : v = 0
  · rw [if_pos hv]
    exact Memory.wf_drop h a
  · rw [if_neg hv]
    exact Memory.wf_insertCell (Memory.wf_drop h a) ha hv fun c hc => (Memory.mem_drop.mp hc).2

theorem Memory.le_of_mem_ofWords {base : Nat} {ws : List Word} {c : Nat × Word} (h : c ∈ Memory.ofWords base ws) :
    base ≤ c.1 ∧ c.1 < base + ws.length ∧ c.2 ≠ 0 := by
  induction ws generalizing base with
  | nil => simp [Memory.ofWords] at h
  | cons w ws ih =>
    simp only [List.length_cons]
    by_cases hw : w = 0#32
    · obtain ⟨h1, h2, h3⟩ := ih (by simpa [Memory.ofWords, hw] using h)
      exact ⟨by omega, by omega, h3⟩
    · rcases (by simpa [Memory.ofWords, hw] using h : c = (base, w) ∨ c ∈ Memory.ofWords (base + 1) ws) with rfl | h
      · exact ⟨Nat.le_refl _, by omega, hw⟩
      · obtain ⟨h1, h2, h3⟩ := ih h
        exact ⟨by omega, by omega, h3⟩

/-- The loaded image is in canonical form. -/
theorem Memory.wf_ofWords {base : Nat} {ws : List Word} (h : base + ws.length ≤ Config.memCapacity) :
    (Memory.ofWords base ws).wf := by
  refine ⟨?_, fun c hc => ?_⟩
  · induction ws generalizing base with
    | nil => simp [Memory.ofWords]
    | cons w ws ih =>
      have ih := ih (base := base + 1) (by simp only [List.length_cons] at h; omega)
      by_cases hw : w = 0#32
      · simpa [Memory.ofWords, hw] using ih
      · simp only [Memory.ofWords, show ¬ w = 0 from hw, if_false]
        exact List.pairwise_cons.mpr ⟨fun c hc => (Memory.le_of_mem_ofWords hc).1, ih⟩
  · have := Memory.le_of_mem_ofWords hc
    exact ⟨by omega, this.2.2⟩

/-- Word `i` of the image stands at address `base + i`, and every other address reads 0 (R39, R191). -/
theorem Memory.read_ofWords (base : Nat) (ws : List Word) (a : Nat) :
    (Memory.ofWords base ws).read a = if base ≤ a then ws.getD (a - base) 0 else 0 := by
  induction ws generalizing base with
  | nil => simp [Memory.ofWords]
  | cons w ws ih =>
    rcases Nat.lt_trichotomy a base with h | rfl | h
    · have hne : a ≠ base := by omega
      have hle : ¬ base ≤ a := by omega
      have hle1 : ¬ base + 1 ≤ a := by omega
      by_cases hw : w = 0#32 <;> simp [Memory.ofWords, Memory.read, hw, hne, hle, hle1, ih]
    · by_cases hw : w = 0#32 <;> simp [Memory.ofWords, Memory.read, hw, ih]
    · have hne : a ≠ base := by omega
      have hle : base ≤ a := by omega
      have hle1 : base + 1 ≤ a := by omega
      obtain ⟨k, hk⟩ : ∃ k, a - base = k + 1 := ⟨a - base - 1, by omega⟩
      have hk1 : a - (base + 1) = k := by omega
      by_cases hw : w = 0#32 <;> simp [Memory.ofWords, Memory.read, hw, hne, hle, hle1, ih, hk, hk1]

/-- Placing an instruction for the host's questions keeps the canonical form. -/
theorem State.placeAtPc_wf {s : State} (h : s.mem.wf) (w : Word) : (s.placeAtPc w).mem.wf := by
  unfold State.placeAtPc
  by_cases hp : 0 ≤ s.pc ∧ s.pc < Config.memCapacity
  · rw [if_pos hp]
    exact Memory.wf_write h (by omega) w
  · rwa [if_neg hp]

theorem State.reset_mem_wf : State.reset.mem.wf := by decide

end Sys2Proof.Machine
end

