-- ==== Sys2Proof/Laws/Exec.lean ====
section
/-! SUPPORT. Everything an executed instruction can do (inversion of `exec`), and everything a cycle can do (inversion of `cycle`). -/

namespace Sys2Proof.Machine

/-- The three ways to a next pc (R25). -/
def NextPc (i : Instr) (s : State) (n : Int) : Prop :=
  n = s.successor ∨ (∃ rs rt, i = .jalr rs rt ∧ n = s.jumpTarget rs) ∨
    ∃ rs rt imm, i = .beq rs rt imm ∧ n = s.branchTarget imm

/-- At most one register write or one store, or a condition, and then steps 7 to 9 (R106). -/
inductive Effect (i : Instr) (s : State) : State → Prop where
  | write (d : RegIdx) (v : Word) (n : Int) (hn : NextPc i s n) : Effect i s ((s.writeReg d v).finish n)
  | store (a : Nat) (v : Word) (ha : a < Config.memCapacity) : Effect i s ((s.storeWord a v).finish s.successor)
  | plain (n : Int) (hn : NextPc i s n) : Effect i s (s.finish n)
  | halt : Effect i s ((s.raise .haltInstruction none).finish s.successor)
  | outOfBounds (addr : Word) : Effect i s (s.outOfBounds addr)

theorem wordIndex_lt {addr : Word} (h : inCapacity addr = true) : wordIndex addr < Config.memCapacity := by
  simp only [inCapacity, Bool.and_eq_true, decide_eq_true_eq, Config.memCapacity] at h
  unfold wordIndex Config.memCapacity
  omega

theorem wordIndex_cast {addr : Word} (h : inCapacity addr = true) : (wordIndex addr : Int) = addr.toInt := by
  simp only [inCapacity, Bool.and_eq_true, decide_eq_true_eq] at h
  unfold wordIndex
  omega

theorem execLw_inBounds {rs rt : RegIdx} {imm : Int} {s : State} (h : inCapacity (s.effectiveAddr rs imm) = true) :
    exec (.lw rs rt imm) s =
      .next ((s.writeReg rt (s.loadWord (wordIndex (s.effectiveAddr rs imm)))).finish s.successor) := by
  simp only [exec, execLw, h, if_true]

theorem execLw_outOfBounds {rs rt : RegIdx} {imm : Int} {s : State} (h : inCapacity (s.effectiveAddr rs imm) = false) :
    exec (.lw rs rt imm) s = .next (s.outOfBounds (s.effectiveAddr rs imm)) := by
  simp [exec, execLw, h]

theorem execSw_inBounds {rs rt : RegIdx} {imm : Int} {s : State} (h : inCapacity (s.effectiveAddr rs imm) = true) :
    exec (.sw rs rt imm) s =
      .next ((s.storeWord (wordIndex (s.effectiveAddr rs imm)) (s.readReg rt)).finish s.successor) := by
  simp only [exec, execSw, h, if_true]

theorem execSw_outOfBounds {rs rt : RegIdx} {imm : Int} {s : State} (h : inCapacity (s.effectiveAddr rs imm) = false) :
    exec (.sw rs rt imm) s = .next (s.outOfBounds (s.effectiveAddr rs imm)) := by
  simp [exec, execSw, h]

theorem execBeq_taken {rs rt : RegIdx} {imm : Int} {s : State} (h : s.readReg rs = s.readReg rt) :
    exec (.beq rs rt imm) s = .next (s.finish (s.branchTarget imm)) := by
  simp [exec, execBeq, equalWords, h]

theorem execBeq_notTaken {rs rt : RegIdx} {imm : Int} {s : State} (h : s.readReg rs ≠ s.readReg rt) :
    exec (.beq rs rt imm) s = .next (s.finish s.successor) := by
  simp [exec, execBeq, equalWords, h]

/-- An instruction always completes, in one of the ways of `Effect`. -/
theorem exec_effect (i : Instr) (s : State) : ∃ t, exec i s = .next t ∧ Effect i s t := by
  cases i with
  | add rs rt rd => exact ⟨_, rfl, .write _ _ _ (.inl rfl)⟩
  | nand rs rt rd => exact ⟨_, rfl, .write _ _ _ (.inl rfl)⟩
  | lw rs rt imm =>
    cases h : inCapacity (s.effectiveAddr rs imm)
    · exact ⟨_, execLw_outOfBounds h, .outOfBounds _⟩
    · exact ⟨_, execLw_inBounds h, .write _ _ _ (.inl rfl)⟩
  | sw rs rt imm =>
    cases h : inCapacity (s.effectiveAddr rs imm)
    · exact ⟨_, execSw_outOfBounds h, .outOfBounds _⟩
    · exact ⟨_, execSw_inBounds h, .store _ _ (wordIndex_lt h)⟩
  | beq rs rt imm =>
    by_cases h : s.readReg rs = s.readReg rt
    · exact ⟨_, execBeq_taken h, .plain _ (.inr (.inr ⟨rs, rt, imm, rfl, rfl⟩))⟩
    · exact ⟨_, execBeq_notTaken h, .plain _ (.inl rfl)⟩
  | jalr rs rt => exact ⟨_, rfl, .write _ _ _ (.inr (.inl ⟨rs, rt, rfl, rfl⟩))⟩
  | halt => exact ⟨_, rfl, .halt⟩
  | noop => exact ⟨_, rfl, .plain _ (.inl rfl)⟩

theorem effect_of_exec {i : Instr} {s t : State} (h : exec i s = .next t) : Effect i s t := by
  obtain ⟨u, hu, he⟩ := exec_effect i s
  obtain rfl : u = t := by simpa [hu] using h
  exact he

/-- Everything a cycle that answers a next state can do (R100, R166). -/
theorem cycle_cases {limit : Option Nat} {s t : State} (h : cycle limit s = .next t) :
    s.halted = false ∧
      ((limitExceeded limit s.emit.countCycle = true ∧ t = s.emit.countCycle.stopWith .stepLimitExceeded none) ∨
        (limitExceeded limit s.emit.countCycle = false ∧ s.fetchable = false ∧
          t = s.emit.countCycle.stopWith .invalidFetchAddress (some (wrap32 s.pc))) ∨
        (limitExceeded limit s.emit.countCycle = false ∧ s.fetchable = true ∧
          exec (decode s.fetch) s.emit.countCycle = .next t)) := by
  have hf : s.emit.countCycle.fetchable = s.fetchable := rfl
  have hw : s.emit.countCycle.fetch = s.fetch := rfl
  unfold cycle at h
  cases hh : s.halted <;> simp only [hh, if_true] at h
  · refine ⟨rfl, ?_⟩
    cases hl : limitExceeded limit s.emit.countCycle <;> simp only [hl, hf, hw, if_true] at h
    · cases hp : s.fetchable <;> simp [hp] at h
      · exact .inr (.inl ⟨rfl, rfl, h.symm⟩)
      · exact .inr (.inr ⟨rfl, rfl, h⟩)
    · exact .inl ⟨rfl, by simpa using h.symm⟩
  · cases h

theorem limitExceeded_iff (limit : Option Nat) (s : State) :
    limitExceeded limit s = true ↔ ∃ l, limit = some l ∧ l < s.steps := by
  cases limit <;> simp [limitExceeded]

theorem fetchable_iff (s : State) : s.fetchable = true ↔ 0 ≤ s.pc ∧ s.pc < s.loadedCount := by
  simp [State.fetchable]

end Sys2Proof.Machine
end

