-- ==== Sys2Proof/Laws/PerInstr.lean ====
section
/-! SUPPORT. Statements about every instruction as syntax, one lemma per constructor. -/

namespace Sys2Proof.Laws.CanonicalWord

/-- The canonical word of an instruction is below 2^25, so its bits 31:25 are 0 (R79), and carries the instruction's opcode (R77). -/
def Statement (i : Instr) : Prop := (encode i).toNat < 2 ^ 25 ∧ (field3 22 (encode i)).val = i.opcode

theorem of_fields {op rs rt low : Nat} (h1 : op < 8) (h2 : rs < 8) (h3 : rt < 8) (h4 : low < 65536) :
    (encodeWord op rs rt low).toNat < 2 ^ 25 ∧ (field3 22 (encodeWord op rs rt low)).val = op := by
  rw [field3_val, encodeWord_toNat h1 h2 h3 h4]
  omega

theorem add (rs rt rd : RegIdx) : Statement (.add rs rt rd) := of_fields (by decide) rs.isLt rt.isLt (by omega)
theorem nand (rs rt rd : RegIdx) : Statement (.nand rs rt rd) := of_fields (by decide) rs.isLt rt.isLt (by omega)
theorem lw (rs rt : RegIdx) (imm : Int) : Statement (.lw rs rt imm) :=
  of_fields (by decide) rs.isLt rt.isLt (low16OfImm_lt imm)
theorem sw (rs rt : RegIdx) (imm : Int) : Statement (.sw rs rt imm) :=
  of_fields (by decide) rs.isLt rt.isLt (low16OfImm_lt imm)
theorem beq (rs rt : RegIdx) (imm : Int) : Statement (.beq rs rt imm) :=
  of_fields (by decide) rs.isLt rt.isLt (low16OfImm_lt imm)
theorem jalr (rs rt : RegIdx) : Statement (.jalr rs rt) := of_fields (by decide) rs.isLt rt.isLt (by decide)
theorem halt : Statement .halt := of_fields (by decide) (by decide) (by decide) (by decide)
theorem noop : Statement .noop := of_fields (by decide) (by decide) (by decide) (by decide)

end Sys2Proof.Laws.CanonicalWord
end

