-- ==== Sys2Proof/Tests/Slice0.lean ====
section
/-! SUPPORT. Small tests. Expected results come from 95_test_vectors.md (named by its row) or are worked out by hand from the cited rule;
the `test_hyps` theorems show a state and operands that meet the hypotheses of the statement they name. -/

namespace Sys2Proof.Tests

open Sys2Proof.Machine

def nextOf (o : Host.Outcome State Fault Refusal) : Option State :=
  match o with
  | .next s => some s
  | .fault _ => none
  | .refused _ => none

/-- A Running state with the given registers, pc, memory and loaded count. -/
def cpu (regs : List (RegIdx × Word)) (pc : Int) (mem : Memory) (count : Nat) : State :=
  regs.foldl (fun s r => s.writeReg r.1 r.2) { State.reset with pc := pc, mem := mem, loadedCount := count }

/-- What the tests look at after one instruction. -/
def after (i : Instr) (s : State) : Option (Int × Bool × Cause × Option Word × Nat) :=
  (nextOf (exec i s)).map fun t => (t.pc, t.halted, t.cause, t.faultInfo, t.trace.length)

def regAfter (i : Instr) (s : State) (r : RegIdx) : Option Word := (nextOf (exec i s)).map fun t => t.readReg r

def memAfter (i : Instr) (s : State) (a : Nat) : Option Word := (nextOf (exec i s)).map fun t => t.mem.read a

/-! ### WellFormed: each check refuses an ill-formed term -/

theorem test_wf_lw_refused : (Instr.lw 0 0 32768).wellFormed = false ∧ (Instr.lw 0 0 (-32769)).wellFormed = false := by decide
theorem test_wf_sw_refused : (Instr.sw 0 0 32768).wellFormed = false ∧ (Instr.sw 0 0 (-32769)).wellFormed = false := by decide
theorem test_wf_beq_refused : (Instr.beq 0 0 32768).wellFormed = false ∧ (Instr.beq 0 0 (-32769)).wellFormed = false := by decide

/-! ### Decode: words written bit by bit in the order 31:25, opcode, rs, rt, 15:3, 2:0 (R75) -/

theorem test_decode_add : decode 0b00000000000010100000000000000001 = .add 1 2 1 := by decide
theorem test_decode_nand : decode 0b00000000010010100000000000000011 = .nand 1 2 3 := by decide
theorem test_decode_lw : decode 0b00000000100010100000000000000011 = .lw 1 2 3 := by decide
theorem test_decode_sw : decode 0b00000000110001000000000000001010 = .sw 0 4 10 := by decide
theorem test_decode_beq : decode 0b00000001000000001111111111111101 = .beq 0 0 (-3) := by decide
theorem test_decode_jalr : decode 0b00000001011101110000000000000000 = .jalr 6 7 := by decide
theorem test_decode_halt : decode 0b00000001100000000000000000000000 = .halt := by decide
theorem test_decode_noop : decode 0b00000001110000000000000000000000 = .noop := by decide

/-- 2.1: unused bits are ignored, and data words execute as what their bits spell (R78). -/
theorem test_decode_unused_bits :
    decode 0xFE090002 = .add 1 1 2 ∧ decode 0x0009FFFA = .add 1 1 2 ∧ decode 0x80000000 = .add 0 0 0 ∧
      decode 0x02000000 = .add 0 0 0 ∧ decode 0x01FFFFFF = .noop ∧ decode 0x00000000 = .add 0 0 0 := by decide

/-- 2.1, the sign-extension table (source S5). -/
theorem test_sext :
    sext16 0x0000 = 0 ∧ sext16 0x7FFF = 32767 ∧ sext16 0x8000 = -32768 ∧ sext16 0x8001 = -32767 ∧ sext16 0xFFFF = -1 := by decide

/-- Part 3: the words of programs P1, P2, P3. -/
theorem test_encode :
    encode (.add 1 2 1) = 0x000A0001 ∧ encode (.nand 3 3 4) = 0x005B0004 ∧ encode (.lw 0 1 7) = 0x00810007 ∧
      encode (.sw 0 3 100) = 0x00C30064 ∧ encode (.beq 0 0 (-3)) = 0x0100FFFD ∧ encode (.jalr 7 5) = 0x017D0000 ∧
      encode .halt = 0x01800000 ∧ encode .noop = 0x01C00000 := by decide

/-- 2.1: the six outputs for the word 0x0155AAAA. -/
theorem test_decodeFields : decodeFields 0x0155AAAA = ⟨5, 2, 5, 2, 43690, -21846⟩ := by decide

/-! ### One instruction on a small state -/

/-- Source S3, and 2.2: positive overflow wraps. -/
theorem test_add : regAfter (.add 1 1 2) (cpu [(1, -3)] 0 [] 1) 2 = some (-6) := by decide
theorem test_add_wraps : regAfter (.add 1 2 1) (cpu [(1, 0x7FFFFFFF), (2, 1)] 0 [] 1) 1 = some 0x80000000 := by decide

/-- 2.2 (AND = 3120), and a write to register 0 is discarded. -/
theorem test_nand : regAfter (.nand 1 2 3) (cpu [(1, 4080), (2, 15420)] 0 [] 1) 3 = some (-3121) := by decide
theorem test_nand_r0 : regAfter (.nand 0 0 0) (cpu [] 0 [] 1) 0 = some 0 := by decide

/-- 2.3: base and destination the same; the first address above memory, read from x[1] = 65535 at pc 1. -/
theorem test_lw : regAfter (.lw 1 1 0) (cpu [(1, 8)] 0 [(8, 99)] 1) 1 = some 99 := by decide
theorem test_lw_out_of_bounds :
    after (.lw 1 2 1) (cpu [(1, 65535)] 1 [] 4) = some (2, true, .outOfBoundsMemoryAccess, some 65536, 1) := by decide

/-- 2.3: a store beyond the image; a store at address -1. -/
theorem test_sw : memAfter (.sw 0 3 100) (cpu [(3, -3121)] 0 [] 11) 100 = some (-3121) := by decide
theorem test_sw_out_of_bounds :
    after (.sw 1 1 0) (cpu [(1, -1)] 1 [(0, 7)] 4) = some (2, true, .outOfBoundsMemoryAccess, some (-1), 1) := by decide

/-- 2.4: S6 (taken from pc 10), and B2 (not taken). -/
theorem test_beq_taken : after (.beq 3 3 (-3)) (cpu [] 10 [] 20) = some (8, false, .none, none, 0) := by decide
theorem test_beq_not_taken : after (.beq 0 1 2) (cpu [(1, 4)] 3 [] 20) = some (4, false, .none, none, 0) := by decide

/-- 2.4: J4 (rs = rt jumps to the old value), J8 (a negative target). -/
theorem test_jalr_alias :
    regAfter (.jalr 3 3) (cpu [(3, 40)] 1 [] 4) 3 = some 2 ∧
      after (.jalr 3 3) (cpu [(3, 40)] 1 [] 4) = some (40, false, .none, none, 0) := by decide
theorem test_jalr_negative :
    regAfter (.jalr 1 2) (cpu [(1, -5)] 4 [] 9) 2 = some 5 ∧
      after (.jalr 1 2) (cpu [(1, -5)] 4 [] 9) = some (-5, false, .none, none, 0) := by decide

/-- 2.5. -/
theorem test_halt : after .halt (cpu [] 6 [] 9) = some (7, true, .haltInstruction, none, 1) := by decide
theorem test_noop : after .noop (cpu [] 5 [] 9) = some (6, false, .none, none, 0) := by decide

/-! ### One step, and the start of a run -/

/-- P7: the halt-only program shows pc 0, then pc 1. -/
theorem test_step_halt_only :
    ((nextOf (launch [25165824] 1)).bind fun s => nextOf (step s)).map (fun t => t.trace.map (·.pc)) = some [0, 1] := by decide

/-- P10: the empty image. -/
theorem test_step_empty_image :
    (nextOf (step State.reset)).map (fun t => (t.cause, t.faultInfo, t.steps, t.trace.length))
      = some (.invalidFetchAddress, some 0, 1, 2) := by decide

/-- 2.6: `STEP_LIMIT = 3` with three cycles counted; both checks would fail and the limit is reported (R166). -/
theorem test_cycle_step_limit :
    (nextOf (cycle (some 3) { cpu [] (-1) [] 1 with steps := 3 })).map (fun t => (t.cause, t.faultInfo, t.steps, t.pc))
      = some (.stepLimitExceeded, none, 4, -1) := by decide

/-- R110: no step is enabled in the Halted state. -/
theorem test_step_halted : nextOf (step { State.reset with halted := true, cause := .haltInstruction }) = none := by decide

/-- Each row of the opcode table's fixed bits, placed as the first instruction after reset. -/
theorem test_withFetchWord_decodes :
    (decodeTableWord 32 0x00000000, decodeTableWord 32 0x00400000, decodeTableWord 32 0x01800000)
      = (some (.add 0 0 0), some (.nand 0 0 0), some .halt) := by decide
theorem test_withFetchWord_runs :
    (nextOf (step (State.reset.withFetchWord 32 0x0100FFFE))).map (fun t => (t.pc, t.steps, t.halted))
      = some (-1, 1, false) := by decide

/-- U8: a value outside 32 bits is refused at launch. -/
theorem test_launch_refuses : nextOf (launch [2147483648] 1) = none := by decide

/-! ### Witnesses: the hypotheses of the statements can be met -/

/-- A Running state with x[1] = 98303, x[2] = 65535, x[3] = -1. -/
def demo : State := cpu [(1, 98303), (2, 65535), (3, -1)] 0 [(0, 0x00C00001), (65535, 5)] 4

theorem test_hyps_DecodeOfEncode : (Instr.lw 7 7 (-32768)).WellFormed ∧ (Instr.sw 7 7 32767).WellFormed := by decide

theorem test_hyps_OpcodeSelectsInstruction :
    (0xFE00FFFF : Word) &&& 0x01C00000 = 0x00000000 ∧ (0x00400000 : Word) &&& 0x01C00000 = 0x00400000 ∧
      (0x00BFFFFF : Word) &&& 0x01C00000 = 0x00800000 ∧ (0x00C00000 : Word) &&& 0x01C00000 = 0x00C00000 ∧
      (0x013FFFFF : Word) &&& 0x01C00000 = 0x01000000 ∧ (0x01400000 : Word) &&& 0x01C00000 = 0x01400000 ∧
      (0x7F800000 : Word) &&& 0x01C00000 = 0x01800000 ∧ (0xFFFFFFFF : Word) &&& 0x01C00000 = 0x01C00000 := by decide

theorem test_hyps_UnusedBitsIgnored :
    bits 24 0 0xFE090002 = bits 24 0 0x00090002 ∧
      (bits 24 22 0x0009FFFA = 0 ∧ bits 24 16 0x0009FFFA = bits 24 16 0x00090002 ∧ bits 2 0 0x0009FFFA = bits 2 0 0x00090002) ∧
      (bits 24 22 0x0040FFF8 = 1 ∧ bits 24 16 0x0040FFF8 = bits 24 16 0x00400000 ∧ bits 2 0 0x0040FFF8 = bits 2 0 0x00400000) ∧
      (bits 24 22 0x0155AAAA = 5 ∧ bits 24 16 0x0155AAAA = bits 24 16 0x01550000) ∧
      (bits 24 22 0x01BFFFFF = 6 ∧ bits 24 22 0x01BFFFFF = bits 24 22 0x01800000) ∧
      (bits 24 22 0xFFFFFFFF = 7 ∧ bits 24 22 0xFFFFFFFF = bits 24 22 0x01C00000) := by decide

/-- Add, Nand, Jalr, Halt, Noop ask only for the Running state. -/
theorem test_hyps_running : demo.halted = false := by decide

theorem test_hyps_AddHasNoSignedness : ∃ t, exec (.add 1 1 2) demo = .next t := ⟨_, rfl⟩

/-- Lw and Sw: both clauses at both ends of their ranges: addresses 65535 and 0, 65536 and -1. -/
theorem test_hyps_LwSw :
    demo.halted = false ∧
      (0 ≤ (demo.effectiveAddr 1 (-32768)).toInt ∧ (demo.effectiveAddr 1 (-32768)).toInt < 65536) ∧
      (0 ≤ (demo.effectiveAddr 3 1).toInt ∧ (demo.effectiveAddr 3 1).toInt < 65536) ∧
      65536 ≤ (demo.effectiveAddr 2 1).toInt ∧ (demo.effectiveAddr 0 (-1)).toInt < 0 := by decide

theorem test_hyps_OutOfBoundsCommitsThePc :
    (Instr.sw 2 2 1 = .lw 2 2 1 ∨ Instr.sw 2 2 1 = .sw 2 2 1) ∧ inCapacity (demo.effectiveAddr 2 1) = false ∧
      (Instr.lw 0 0 (-1) = .lw 0 0 (-1) ∨ Instr.lw 0 0 (-1) = .sw 0 0 (-1)) ∧ inCapacity (demo.effectiveAddr 0 (-1)) = false := by
  decide

theorem test_hyps_BeqBranchesWhenEqual :
    demo.halted = false ∧ demo.readReg 1 = demo.readReg 1 ∧ demo.readReg 1 ≠ demo.readReg 2 := by decide

theorem test_hyps_WrapNeverChangesTheVerdict :
    immInRange (-32768) = true ∧ inCapacity (demo.effectiveAddr 1 (-32768)) = true ∧
      immInRange 32767 = true ∧ inCapacity (demo.effectiveAddr 0 32767) = true := by decide

theorem test_hyps_RegisterZeroForced : ∃ t, exec (.lw 2 0 0) demo = .next t := ⟨_, rfl⟩

/-- The statements about any cycle: one that executes, one that stops at step 2, one at step 3. -/
theorem test_hyps_cycle :
    demo.cause ≠ .unknownOpcode ∧ (nextOf (cycle none demo)).isSome = true ∧
      (nextOf (cycle (some 0) demo)).isSome = true ∧ (nextOf (cycle (some 1) { demo with pc := 4 })).isSome = true := by decide

/-- A store and a load that name one address differently: x[2] + 0 and x[1] - 32768. -/
theorem test_hyps_LoadReturnsStoredWord :
    inCapacity (demo.effectiveAddr 2 0) = true ∧
      (nextOf (exec (.sw 2 3 0) demo)).map (fun t => t.effectiveAddr 1 (-32768)) = some (demo.effectiveAddr 2 0) := by decide

/-- The store over the next word of the program, then the fetch there. -/
theorem test_hyps_StoreSeenByFetch :
    inCapacity (demo.effectiveAddr 0 1) = true ∧
      (nextOf (exec (.sw 0 3 1) demo)).map (fun u =>
          decide (u.pc = (demo.effectiveAddr 0 1).toInt ∧ u.pc < u.loadedCount ∧ u.halted = false ∧ u.steps < 1000000))
        = some true := by decide

/-- Below `loaded_count`, and at or above it. -/
theorem test_hyps_SnapshotShowsStoresBelowCount :
    inCapacity (demo.effectiveAddr 0 3) = true ∧ inCapacity (demo.effectiveAddr 0 4) = true ∧
      (nextOf (exec (.sw 0 3 3) demo)).isSome = true ∧ (nextOf (exec (.sw 0 3 4) demo)).isSome = true := by decide

/-- demo's first word is `sw 0 0 1`; with a nonzero word at 1 the step changes it. -/
theorem test_hyps_OnlySwChangesMemory :
    (nextOf (step { demo with mem := [(0, 0x00C00001), (1, 9)] })).map (fun t => t.mem.read 1) = some 0 ∧
      Memory.read [(0, 0x00C00001), (1, 9)] 1 = 9 := by decide

/-- The word 0x00090002 is `add 1 1 2`. -/
theorem test_hyps_OnlyDestinationChanges :
    (2 : RegIdx) ≠ 0 ∧
      (nextOf (step { demo with mem := [(0, 0x00090002)] })).map (fun t => decide (t.readReg 2 ≠ demo.readReg 2)) = some true := by
  decide

/-- demo with another count, counter and trace. -/
def demoOther : State := { demo with steps := 9, loadedCount := 1, trace := [demo.snapshot] }

theorem test_hyps_ExecIgnoresEngineState :
    demoOther.regs = demo.regs ∧ demoOther.pc = demo.pc ∧ demoOther.mem = demo.mem ∧
      ∃ t, exec (.lw 2 4 0) demo = .next t := ⟨rfl, rfl, rfl, _, rfl⟩

theorem test_hyps_StepRunsDecodedInstruction :
    demo.halted = false ∧ demo.steps < 1000000 ∧ 0 ≤ demo.pc ∧ demo.pc < demo.loadedCount ∧
      decode (demo.mem.read demo.pc.toNat) = .sw 0 0 1 := by decide

/-- At the limit, and one below it. -/
theorem test_hyps_StepLimitStopsTheRun :
    demo.halted = false ∧ 0 ≤ demo.steps ∧ demo.steps < 1 ∧ demo.cause ≠ .stepLimitExceeded ∧
      (nextOf (cycle none demo)).isSome = true := by decide

/-- The pc at -1 and at `loaded_count`, with a limit and without one. -/
theorem test_hyps_InvalidFetchStopsTheRun :
    demo.halted = false ∧ (∀ l, (some 1 : Option Nat) = some l → demo.steps < l) ∧
      (∀ l, (none : Option Nat) = some l → demo.steps < l) ∧
      ({ demo with pc := -1 }.pc < 0 ∧ -2147483648 ≤ { demo with pc := -1 }.pc) ∧ (({ demo with pc := 4 }.loadedCount : Int) ≤ { demo with pc := 4 }.pc) :=
  ⟨by decide, fun l h => by cases h; decide, fun _ h => (nomatch h), by decide, by decide⟩

theorem test_hyps_CycleExactlyWhileRunning : { demo with halted := true }.halted = true := rfl

/-- The three clauses at their edges: steps at the limit; one below it with the pc at `loaded_count`, and at `loaded_count - 1`. -/
theorem test_hyps_ConditionPriority :
    (nextOf (cycle (some 0) demo)).isSome = true ∧
      (nextOf (cycle (some 1) { demo with pc := 4 })).isSome = true ∧ ¬ (1 ≤ demo.steps) ∧
      (nextOf (cycle (some 1) { demo with pc := 3 })).isSome = true ∧ demo.steps < 1 := by decide

/-- x[2] = 65535 is no fetch address of demo. -/
theorem test_hyps_BadTargetFaultsNextCycle :
    demo.halted = false ∧ demo.steps < 1000000 ∧
      (nextOf (exec (.jalr 2 7) demo)).map (fun t => decide (t.pc < 0 ∨ (t.loadedCount : Int) ≤ t.pc)) = some true ∧
      (nextOf (exec (.beq 0 0 (-2)) demo)).map (fun t => decide (t.pc < 0 ∨ (t.loadedCount : Int) ≤ t.pc)) = some true := by
  decide

theorem test_hyps_LaunchGivesResetValues :
    [25165824, -2147483648].length = 2 ∧ 2 ≤ 65536 ∧
      ∀ v ∈ [(25165824 : Int), -2147483648], -2147483648 ≤ v ∧ v ≤ 2147483647 := by decide

/-- Each clause: a wrong count, a count above the capacity, a value below and one above the range. -/
theorem test_hyps_LaunchRefusesOtherInput :
    ([] : List Int).length ≠ 1 ∧ 65536 < 65537 ∧ (∃ v ∈ [(-2147483649 : Int)], v < -2147483648 ∨ 2147483647 < v) ∧
      ∃ v ∈ [(2147483648 : Int)], v < -2147483648 ∨ 2147483647 < v := by decide

theorem test_hyps_InvariantsAtLaunch : ∃ t, launch [25165824] 1 = .next t := ⟨_, rfl⟩

theorem test_hyps_StateInvariantKept : Inv demo ∧ ∃ t, cycle (some 1) demo = .next t :=
  ⟨⟨by decide, by decide, by decide, by decide, by decide, by decide, by decide, by decide⟩, _, rfl⟩

/-- demo after one counted cycle that emitted its snapshot. -/
theorem test_hyps_TraceInvariantKept :
    demo.emit.countCycle.readReg 0 = 0 ∧ TraceInv demo.emit.countCycle ∧ ∃ t, cycle (some 2) demo.emit.countCycle = .next t :=
  ⟨by decide, ⟨by decide, by decide⟩, _, rfl⟩

theorem test_hyps_StepCounterBounded : StepsWithin (some 0) demo ∧ ∃ t, cycle (some 0) demo = .next t :=
  ⟨fun l h => by cases h; decide, _, rfl⟩

theorem test_hyps_EveryRunHalts : demo.halted = false ∧ demo.steps ≤ 1000000 := by decide

end Sys2Proof.Tests
end

section
/-! The reset with an image (R190): what the load contract says, what the loaded memory reads as, and the state a run starts in. -/

namespace Sys2Proof.Machine

/-- On the signed 32-bit range the narrowing of R10 loses nothing. -/
theorem wrap32_toInt_of_range {z : Int} (hlo : -2147483648 ≤ z) (hhi : z ≤ 2147483647) : (wrap32 z).toInt = z := by
  rw [wrap32, BitVec.toInt_ofInt]
  exact Int.bmod_eq_of_le (by omega) (by omega)

/-- The load interface's check says exactly the contract of R191. -/
theorem imageInContract_iff {image : List Int} {count : Nat} :
    imageInContract image count = true ↔
      image.length = count ∧ count ≤ 65536 ∧ ∀ v ∈ image, -2147483648 ≤ v ∧ v ≤ 2147483647 := by
  simp [imageInContract, and_assoc]

theorem launch_of_inContract {image : List Int} {count : Nat} (h : imageInContract image count = true) :
    launch image count =
      .next { State.reset with mem := Memory.ofWords 0 (image.map wrap32), loadedCount := count } :=
  if_pos h

theorem State.readReg_of_regs_zero {s : State} (h : s.regs = Vector.replicate 8 0) (r : RegIdx) : s.readReg r = 0 := by
  rw [State.readReg, h, Vector.get_eq_getElem, Vector.getElem_replicate]

/-- The loaded memory holds the image word for word, as signed values, and 0 above it (R39). -/
theorem Memory.read_ofWords_map_wrap32_toInt {image : List Int}
    (h : ∀ v ∈ image, -2147483648 ≤ v ∧ v ≤ 2147483647) (a : Nat) :
    ((Memory.ofWords 0 (image.map wrap32)).read a).toInt = image.getD a 0 := by
  rw [Memory.read_ofWords, if_pos (Nat.zero_le a), Nat.sub_zero]
  by_cases ha : a < image.length
  · obtain ⟨hlo, hhi⟩ := h image[a] (List.getElem_mem ha)
    simp [ha, wrap32_toInt_of_range hlo hhi]
  · simp [ha]

/-- Settles O35: launch changes the memory and `loaded_count` of the reset state alone, and the loaded memory reads as the image. -/
theorem launchGivesResetValues : Obligations.LaunchGivesResetValues := by
  intro image count hlen hcap hrange
  exact ⟨_, launch_of_inContract (imageInContract_iff.mpr ⟨hlen, hcap, hrange⟩), State.readReg_of_regs_zero rfl, rfl,
    Memory.read_ofWords_map_wrap32_toInt hrange, rfl, rfl, rfl, rfl, rfl, rfl⟩

end Sys2Proof.Machine
end

section
/-! The Decoder against the bits of the word (R71, R72, R77): the immediate as a sign-extended bit vector, and the opcode field
under the mask of the opcode table. -/

namespace Sys2Proof

@[simp] theorem decodeFields_opcode_val (w : Word) : (decodeFields w).opcode.val = w.toNat / 2 ^ 22 % 8 := field3_val 22 w

@[simp] theorem decodeFields_rs_val (w : Word) : (decodeFields w).rs.val = w.toNat / 2 ^ 19 % 8 := field3_val 19 w

@[simp] theorem decodeFields_rt_val (w : Word) : (decodeFields w).rt.val = w.toNat / 2 ^ 16 % 8 := field3_val 16 w

@[simp] theorem decodeFields_rd_val (w : Word) : (decodeFields w).rd.val = w.toNat % 8 := by
  rw [← Nat.div_one w.toNat]
  exact field3_val 0 w

@[simp] theorem decodeFields_imm16_toNat (w : Word) : (decodeFields w).imm16.toNat = w.toNat % 65536 := rawImm_toNat w

/-- Settles O3: each output is a field of the unsigned view, and `rd` lies inside `imm16`. -/
theorem decoderOutputs : Obligations.DecoderOutputs := by
  intro w
  exact ⟨decodeFields_opcode_val w, decodeFields_rs_val w, decodeFields_rt_val w, decodeFields_rd_val w,
    decodeFields_imm16_toNat w, by simp, rfl⟩

/-- The raw immediate is the low half of the word, bit for bit. -/
theorem rawImm_eq_setWidth (w : Word) : rawImm w = w.setWidth 16 :=
  BitVec.eq_of_toNat_eq (by simp [rawImm_toNat])

/-- The sign extension of R9 is the signed view of the 16 bits. -/
theorem sext16_toNat (v : BitVec 16) : sext16 v.toNat = v.toInt := by
  rw [sext16, BitVec.toInt_eq_toNat_cond]
  split <;> split <;> omega

theorem decodeFields_imm32_eq_toInt (w : Word) : (decodeFields w).imm32 = (w.setWidth 16).toInt := by
  rw [← rawImm_eq_setWidth]
  exact sext16_toNat (rawImm w)

theorem wrap32_imm32 (w : Word) : wrap32 (decodeFields w).imm32 = (w.setWidth 16).signExtend 32 := by
  rw [decodeFields_imm32_eq_toInt]
  rfl

theorem msb_setWidth16 (w : Word) : (w.setWidth 16).msb = w.getLsbD 15 := by
  simp [BitVec.msb_eq_getLsbD_last]

/-- R72's text: subtract 65536 from the unsigned value exactly when bit 15 is set. -/
theorem decodeFields_imm32_eq_ite (w : Word) :
    (decodeFields w).imm32 =
      if w.getLsbD 15 then ((decodeFields w).imm16.toNat : Int) - 65536 else ((decodeFields w).imm16.toNat : Int) := by
  rw [decodeFields_imm32_eq_toInt, BitVec.toInt_eq_msb_cond, msb_setWidth16, ← rawImm_eq_setWidth]
  rfl

/-- The pattern of the extended immediate: the low half of the word below copies of bit 15. -/
theorem getLsbD_wrap32_imm32 (w : Word) {k : Nat} (hk : k < 32) :
    (wrap32 (decodeFields w).imm32).getLsbD k = if k < 16 then w.getLsbD k else w.getLsbD 15 := by
  rw [wrap32_imm32, BitVec.getLsbD_signExtend, msb_setWidth16, BitVec.getLsbD_setWidth]
  split <;> simp [*]

/-- Settles O4: `imm32` is the signed view of the word's low half, which gives its value, its range and its pattern; the two
operand forms add it as it is. -/
theorem immediateIsSignExtended : Obligations.ImmediateIsSignExtended := by
  intro w
  obtain ⟨hlo, hhi⟩ := sext16_range (rawImm w).isLt
  exact ⟨decodeFields_imm32_eq_ite w, hlo, hhi, fun _ => getLsbD_wrap32_imm32 w, fun _ _ => ⟨rfl, rfl⟩⟩

/-- A mask of `k` ones from bit `i` up cuts out that field and leaves it in its place. -/
theorem and_shiftLeft_ones (n k i : Nat) : n &&& (2 ^ k - 1) <<< i = n / 2 ^ i % 2 ^ k * 2 ^ i := by
  rw [← Nat.shiftRight_eq_div_pow, ← Nat.shiftLeft_eq]
  refine Nat.eq_of_testBit_eq fun j => ?_
  simp only [Nat.testBit_and, Nat.testBit_shiftLeft, Nat.testBit_two_pow_sub_one, Nat.testBit_mod_two_pow,
    Nat.testBit_shiftRight]
  by_cases hj : i ≤ j
  · simp [hj, Nat.add_sub_cancel' hj, Bool.and_comm]
  · simp [hj]

/-- The mask of R77 is three ones at bit 22: the masked word is the canonical word of its opcode, every other field 0. -/
theorem and_opcodeMask (w : Word) : w &&& 0x01C00000 = encodeWord (decodeFields w).opcode.val 0 0 0 := by
  have hmask : (0x01C00000 : Word).toNat = (2 ^ 3 - 1) <<< 22 := by decide
  apply BitVec.eq_of_toNat_eq
  rw [BitVec.toNat_and, hmask, and_shiftLeft_ones,
    encodeWord_toNat (decodeFields w).opcode.isLt (by decide) (by decide) (by decide), decodeFields_opcode_val]
  simp

/-- A word that matches row `k` of the opcode table has the opcode `k`. -/
theorem opcode_of_match {w : Word} {k : Fin 8} (h : w &&& 0x01C00000 = encodeWord k.val 0 0 0) :
    (decodeFields w).opcode = k := by
  have field (j : Fin 8) : (field3 22 (encodeWord j.val 0 0 0)).val = j.val :=
    (Laws.CanonicalWord.of_fields j.isLt (by decide) (by decide) (by decide)).2
  apply Fin.ext
  rw [← field, ← and_opcodeMask, h, field]

/-- A word that matches row `k` decodes by the arm of `k`, to the decoder's own fields. -/
theorem decode_of_match {w : Word} (k : Fin 8) (h : w &&& 0x01C00000 = encodeWord k.val 0 0 0) :
    decode w = instrOfFields { decodeFields w with opcode := k } := by
  rw [decode, ← opcode_of_match h]

/-- Settles O5: the masked word is the opcode in its place, so each row fixes the opcode, and the eight opcodes are all there are. -/
theorem opcodeSelectsInstruction : Obligations.OpcodeSelectsInstruction := by
  intro w
  refine ⟨decode_of_match 0, decode_of_match 1, decode_of_match 2, decode_of_match 3, decode_of_match 4, decode_of_match 5,
    decode_of_match 6, decode_of_match 7, ?_⟩
  rw [and_opcodeMask]
  generalize (decodeFields w).opcode = k
  revert k
  decide

end Sys2Proof
end

section
/-! The ends of a cycle: every executed instruction ends in steps 7 to 9 (R107, R109), and what a cycle appends to the trace. -/

namespace Sys2Proof.Machine

/-- Every instruction ends in steps 7 to 9, and emits nothing before them (R106 to R109). -/
theorem Effect.exists_finish {i : Instr} {s t : State} (h : Effect i s t) :
    ∃ (u : State) (n : Int), u.trace = s.trace ∧ t = u.finish n := by
  cases h with
  | write d v n => exact ⟨s.writeReg d v, n, rfl, rfl⟩
  | store a v => exact ⟨s.storeWord a v, s.successor, rfl, rfl⟩
  | plain n => exact ⟨s, n, rfl, rfl⟩
  | halt => exact ⟨s.raise .haltInstruction none, s.successor, rfl, rfl⟩
  | outOfBounds addr => exact ⟨s.raise .outOfBoundsMemoryAccess (some addr), s.successor, rfl, rfl⟩

theorem Effect.readReg_zero {i : Instr} {s t : State} (h : Effect i s t) : t.readReg 0 = 0 := by
  obtain ⟨u, n, -, rfl⟩ := h.exists_finish
  simp

/-- An instruction emits the final snapshot exactly when it leaves the machine halted (R109). -/
theorem Effect.trace_eq {i : Instr} {s t : State} (h : Effect i s t) :
    t.trace = s.trace ++ (if t.halted then [t.snapshot] else []) := by
  obtain ⟨u, n, htrace, rfl⟩ := h.exists_finish
  rw [State.finish_trace, State.finish_halted_eq, htrace]
  cases u.halted <;> simp

/-- Settles O19: step 7 clears `x[0]`, and the one snapshot an instruction may append is of the state it leaves. -/
theorem registerZeroForced : Obligations.RegisterZeroForced := by
  intro i s t h
  have he := effect_of_exec h
  have hzero : t.readReg 0 = 0 := he.readReg_zero
  have htrace := he.trace_eq
  refine ⟨hzero, ?_⟩
  cases hh : t.halted
  · exact .inl (by simpa [hh] using htrace)
  · exact .inr ⟨by simpa [hh] using htrace, hzero⟩

/-- Settles O33: step 1 appends the snapshot found; the stop of steps 2 and 3, or step 9, the one left. -/
theorem snapshotsOfEachCycle : Obligations.SnapshotsOfEachCycle := by
  intro limit s t h
  obtain ⟨-, ⟨-, rfl⟩ | ⟨-, -, rfl⟩ | ⟨-, -, hexec⟩⟩ := cycle_cases h
  · simp
  · simp
  · simpa using (effect_of_exec hexec).trace_eq

theorem limitExceeded_countCycle_eq_false {limit : Option Nat} {s : State} (h : ∀ l, limit = some l → s.steps < l) :
    limitExceeded limit s.emit.countCycle = false := by
  rw [Bool.eq_false_iff, ne_eq, limitExceeded_iff]
  rintro ⟨l, hl, hlt⟩
  have := h l hl
  simp only [State.countCycle_steps, State.emit_steps] at hlt
  omega

theorem fetchable_eq_false_iff (s : State) : s.fetchable = false ↔ s.pc < 0 ∨ (s.loadedCount : Int) ≤ s.pc := by
  rw [Bool.eq_false_iff, ne_eq, fetchable_iff]
  omega

/-- A cycle that passes step 2 and fails step 3 (R103). -/
theorem cycle_of_not_fetchable {limit : Option Nat} {s : State} (hrun : s.halted = false)
    (hlimit : limitExceeded limit s.emit.countCycle = false) (hfetch : s.fetchable = false) :
    cycle limit s = .next (s.emit.countCycle.stopWith .invalidFetchAddress (some (wrap32 s.pc))) := by
  have hfetch' : s.emit.countCycle.fetchable = false := hfetch
  simp [cycle, hrun, hlimit, hfetch']

/-- The state after a stop in step 2 or step 3: nothing but the halt record, the counter and the trace has changed. -/
theorem State.stopWith_countCycle_emit (s : State) (c : Cause) (info : Option Word) :
    s.emit.countCycle.stopWith c info =
      { s with halted := true, cause := c, faultInfo := info, steps := s.steps + 1,
               trace := s.trace ++ [s.snapshot, s.snapshot] } := by
  have htrace : (s.emit.countCycle.stopWith c info).trace = s.trace ++ [s.snapshot, s.snapshot] := by simp
  rw [← htrace]
  rfl

/-- Settles O29: the cycle stops in step 3, and the reported word is the pc itself over the signed 32-bit range. -/
theorem invalidFetchStopsTheRun : Obligations.InvalidFetchStopsTheRun := by
  intro limit s hrun hlimit hpc
  refine ⟨?_, wrap32_toInt_of_range⟩
  rw [cycle_of_not_fetchable hrun (limitExceeded_countCycle_eq_false hlimit) ((fetchable_eq_false_iff s).mpr hpc),
    State.stopWith_countCycle_emit]

end Sys2Proof.Machine
end

section
/-! `add` and `nand` (R121, R122): the frame of an executed register write, and the NAND word bit by bit and as a signed value. -/

namespace Sys2Proof.Machine

/-- The whole effect of a completed instruction that writes one register, while Running: the destination (0 if it is `x[0]`,
R107), the next pc, and the frame. -/
theorem State.writeReg_finish_frame {s : State} (hrun : s.halted = false) (rd : RegIdx) (v : Word) (n : Int) :
    RegsWrite rd v s ((s.writeReg rd v).finish n) ∧ MemKept s ((s.writeReg rd v).finish n) ∧
      ((s.writeReg rd v).finish n).pc = n ∧ EngineKept s ((s.writeReg rd v).finish n) := by
  refine ⟨fun r => ?_, fun a => ?_, ?_, ?_⟩
  · simp
  · simp
  · simp
  · simp [EngineKept, State.finish_trace, hrun]

theorem exec_add (rs rt rd : RegIdx) (s : State) :
    exec (.add rs rt rd) s =
      .next ((s.writeReg rd (addWords (s.readReg rs) (s.readReg rt))).finish s.successor) := rfl

theorem exec_nand (rs rt rd : RegIdx) (s : State) :
    exec (.nand rs rt rd) s =
      .next ((s.writeReg rd (nandWords (s.readReg rs) (s.readReg rt))).finish s.successor) := rfl

/-- The canonical word of the three-register format (R79). -/
theorem encodeWord_toNat_of_regs {op : Nat} (hop : op < 8) (rs rt rd : RegIdx) :
    (encodeWord op rs.val rt.val rd.val).toNat = op * 2 ^ 22 + rs.val * 2 ^ 19 + rt.val * 2 ^ 16 + rd.val :=
  encodeWord_toNat hop rs.isLt rt.isLt (by omega)

/-- Settles O8: `addWords` is the wrapped signed sum, written by an instruction that changes one register. -/
theorem addWritesWrappedSum : Obligations.AddWritesWrappedSum := by
  refine ⟨fun rs rt rd => ?_, fun s rs rt rd hrun => ?_⟩
  · simpa [encode] using encodeWord_toNat_of_regs (op := 0) (by decide) rs rt rd
  · exact ⟨_, exec_add rs rt rd s, State.writeReg_finish_frame hrun rd _ s.successor⟩

/-- R122's reading of a result bit, `1 - a_k * b_k`. -/
theorem nandWords_getLsbD (a b : Word) {k : Nat} (hk : k < 32) :
    (nandWords a b).getLsbD k = !(a.getLsbD k && b.getLsbD k) := by
  simp [nandWords, hk]

/-- Complement in two's complement: `-1 - s(a AND b)` is already in the signed range, so nothing wraps. -/
theorem nandWords_toInt (a b : Word) : (nandWords a b).toInt = -(a &&& b).toInt - 1 := by
  have hlt : (a &&& b).toNat < 2 ^ 32 := (a &&& b).isLt
  rw [nandWords, BitVec.toInt_eq_toNat_cond, BitVec.toInt_eq_toNat_cond, BitVec.toNat_not]
  split <;> split <;> omega

/-- Settles O10: `nandWords` is R122's word bit by bit, written by an instruction that changes one register. -/
theorem nandWritesNotAnd : Obligations.NandWritesNotAnd := by
  refine ⟨fun rs rt rd => ?_, fun s rs rt rd hrun => ?_⟩
  · simpa [encode] using encodeWord_toNat_of_regs (op := 1) (by decide) rs rt rd
  · exact ⟨_, nandWords (s.readReg rs) (s.readReg rt), exec_nand rs rt rd s, fun _ => nandWords_getLsbD _ _,
      nandWords_toInt _ _, State.writeReg_finish_frame hrun rd _ s.successor⟩

end Sys2Proof.Machine
end

section
/-! `lw` and `sw` (R130 to R132): the canonical word of the immediate format, the bounds check, and the frames of a store and of
the out-of-bounds path. -/

namespace Sys2Proof.Machine

theorem low16OfImm_cast (imm : Int) : (low16OfImm imm : Int) = imm % 65536 :=
  Int.toNat_of_nonneg (Int.emod_nonneg imm (by decide))

/-- The canonical word of format I (R79). -/
theorem encodeWord_toNat_of_imm {op : Nat} (hop : op < 8) (rs rt : RegIdx) (imm : Int) :
    ((encodeWord op rs.val rt.val (low16OfImm imm)).toNat : Int) =
      op * 2 ^ 22 + rs.val * 2 ^ 19 + rt.val * 2 ^ 16 + imm % 65536 := by
  rw [encodeWord_toNat hop rs.isLt rt.isLt (low16OfImm_lt imm), ← low16OfImm_cast]
  push_cast
  rfl

theorem inCapacity_iff (addr : Word) : inCapacity addr = true ↔ 0 ≤ addr.toInt ∧ addr.toInt < 65536 := by
  simp [inCapacity]

theorem inCapacity_eq_false_iff (addr : Word) : inCapacity addr = false ↔ addr.toInt < 0 ∨ 65536 ≤ addr.toInt := by
  rw [Bool.eq_false_iff, ne_eq, inCapacity_iff]
  omega

/-- The whole effect of a completed store, while Running: one word of memory, the next pc, and the frame. -/
theorem State.storeWord_finish_frame {s : State} (hrun : s.halted = false) (a : Nat) (v : Word) (n : Int) :
    RegsKept s ((s.storeWord a v).finish n) ∧ MemStored a v s ((s.storeWord a v).finish n) ∧
      ((s.storeWord a v).finish n).pc = n ∧ EngineKept s ((s.storeWord a v).finish n) := by
  refine ⟨fun r => ?_, fun b => ?_, ?_, ?_⟩
  · simp
  · simp
  · simp
  · simp [EngineKept, State.finish_trace, hrun]

/-- The whole effect of a condition raised by an instruction: the machine ends with it, and registers and memory are kept. -/
theorem State.raise_finish_frame (s : State) (c : Cause) (info : Option Word) (n : Int) :
    RegsKept s ((s.raise c info).finish n) ∧ MemKept s ((s.raise c info).finish n) ∧
      EngineEnded c info s ((s.raise c info).finish n) := by
  refine ⟨fun r => ?_, fun a => ?_, ?_⟩
  · simp
  · simp
  · simp [EngineEnded, State.finish_trace]

/-- The out-of-bounds path of R130 writes no register and no memory, and reports the address. -/
theorem State.outOfBounds_frame (s : State) (addr : Word) :
    RegsKept s (s.outOfBounds addr) ∧ MemKept s (s.outOfBounds addr) ∧
      EngineEnded .outOfBoundsMemoryAccess (some addr) s (s.outOfBounds addr) :=
  s.raise_finish_frame _ _ _

/-- Settles O11: the bounds check decides between one register write and the out-of-bounds path. -/
theorem lwLoadsOrFaults : Obligations.LwLoadsOrFaults := by
  refine ⟨encodeWord_toNat_of_imm (op := 2) (by decide), fun s rs rt imm hrun hlo hhi => ?_, fun s rs rt imm _ hout => ?_⟩
  · exact ⟨_, execLw_inBounds ((inCapacity_iff _).mpr ⟨hlo, hhi⟩), State.writeReg_finish_frame hrun rt _ s.successor⟩
  · exact ⟨_, execLw_outOfBounds ((inCapacity_eq_false_iff _).mpr hout), s.outOfBounds_frame _⟩

/-- Settles O12: the bounds check decides between one store and the out-of-bounds path. -/
theorem swStoresOrFaults : Obligations.SwStoresOrFaults := by
  refine ⟨encodeWord_toNat_of_imm (op := 3) (by decide), fun s rs rt imm hrun hlo hhi => ?_, fun s rs rt imm _ hout => ?_⟩
  · exact ⟨_, execSw_inBounds ((inCapacity_iff _).mpr ⟨hlo, hhi⟩), State.storeWord_finish_frame hrun _ _ s.successor⟩
  · exact ⟨_, execSw_outOfBounds ((inCapacity_eq_false_iff _).mpr hout), s.outOfBounds_frame _⟩

end Sys2Proof.Machine
end

section
/-! `beq` and `jalr` (R140 to R142): the frame of an instruction that writes the pc only, and the two outcomes of the comparison. -/

namespace Sys2Proof.Machine

/-- The whole effect of a completed instruction that writes neither register nor memory, while Running: the next pc, and the
frame. No premise bounds the next pc (R140). -/
theorem State.finish_frame {s : State} (hrun : s.halted = false) (n : Int) :
    RegsKept s (s.finish n) ∧ MemKept s (s.finish n) ∧ (s.finish n).pc = n ∧ EngineKept s (s.finish n) := by
  refine ⟨fun r => ?_, fun a => ?_, ?_, ?_⟩
  · simp
  · simp
  · simp
  · simp [EngineKept, State.finish_trace, hrun]

/-- The target is read from the state before the link is written, also when `rs = rt` (D8). -/
theorem exec_jalr (rs rt : RegIdx) (s : State) :
    exec (.jalr rs rt) s = .next ((s.writeReg rt s.linkWord).finish (s.jumpTarget rs)) := rfl

/-- Settles O14: the comparison decides between the branch target and the successor, and either way only the pc is written. -/
theorem beqBranchesWhenEqual : Obligations.BeqBranchesWhenEqual := by
  refine ⟨encodeWord_toNat_of_imm (op := 4) (by decide), fun s rs rt imm hrun => ?_⟩
  by_cases heq : s.readReg rs = s.readReg rt
  · obtain ⟨hregs, hmem, hpc, hengine⟩ := State.finish_frame hrun (s.branchTarget imm)
    exact ⟨_, execBeq_taken heq, hregs, hmem, hengine, fun _ => hpc, fun hne => absurd heq hne⟩
  · obtain ⟨hregs, hmem, hpc, hengine⟩ := State.finish_frame hrun s.successor
    exact ⟨_, execBeq_notTaken heq, hregs, hmem, hengine, fun h => absurd h heq, fun _ => hpc⟩

/-- Settles O15: the one register written is the link's, and the next pc was captured before the write. -/
theorem jalrLinksAndJumps : Obligations.JalrLinksAndJumps := by
  refine ⟨fun rs rt => ?_, fun s rs rt hrun => ?_⟩
  · simpa [encode] using encodeWord_toNat_of_regs (op := 5) (by decide) rs rt 0
  · exact ⟨_, exec_jalr rs rt s, State.writeReg_finish_frame hrun rt s.linkWord (s.jumpTarget rs)⟩

end Sys2Proof.Machine
end

section
/-! `halt` and `noop` (R151, R152): the normal end, and the instruction whose only effect is the next pc. -/

namespace Sys2Proof.Machine

/-- Steps 7 to 9 run after the halt is recorded, so the successor is still committed (D7). -/
theorem exec_halt (s : State) :
    exec .halt s = .next ((s.raise .haltInstruction none).finish s.successor) := rfl

theorem exec_noop (s : State) : exec .noop s = .next (s.finish s.successor) := rfl

/-- Ending with HaltInstruction is the normal end (R169). -/
theorem EngineEnded.normalEnd {info : Option Word} {s t : State} (h : EngineEnded .haltInstruction info s t) :
    t.NormalEnd := by
  obtain ⟨-, hhalted, hcause, -⟩ := h
  exact ⟨hhalted, hcause⟩

/-- Settles O16: `halt` takes the path of a raised condition, with HaltInstruction and no `fault_info`. -/
theorem haltEndsTheRun : Obligations.HaltEndsTheRun := by
  refine ⟨by decide, fun s _ => ?_⟩
  obtain ⟨hregs, hmem, hended⟩ := s.raise_finish_frame .haltInstruction none s.successor
  exact ⟨_, exec_halt s, hended, hended.normalEnd, hregs, hmem, State.finish_pc _ _⟩

/-- Settles O17: `noop` writes neither register nor memory, and its next pc is the successor. -/
theorem noopOnlyAdvances : Obligations.NoopOnlyAdvances :=
  ⟨by decide, fun s hrun => ⟨_, exec_noop s, State.finish_frame hrun s.successor⟩⟩

end Sys2Proof.Machine
end

section
/-! The Decoder against its own encoder and against the unused bits (R73, R76, R79): what is read back from a canonical word, and
which bits of a word each format reads. -/

namespace Sys2Proof

/-- What the decoder reads from a canonical word: the fields it was built from, with `low` seen as `rd` and as both immediates. -/
theorem decodeFields_encodeWord (op rs rt : Fin 8) {low : Nat} (hlow : low < 65536) :
    decodeFields (encodeWord op.val rs.val rt.val low) =
      ⟨op, rs, rt, Fin.ofNat 8 low, BitVec.ofNat 16 low, sext16 low⟩ := by
  have hw := encodeWord_toNat op.isLt rs.isLt rt.isLt hlow
  have hop : field3 22 (encodeWord op.val rs.val rt.val low) = op := by
    apply Fin.ext
    rw [field3_val, hw]
    omega
  have hrs : field3 19 (encodeWord op.val rs.val rt.val low) = rs := by
    apply Fin.ext
    rw [field3_val, hw]
    omega
  have hrt : field3 16 (encodeWord op.val rs.val rt.val low) = rt := by
    apply Fin.ext
    rw [field3_val, hw]
    omega
  have hrd : field3 0 (encodeWord op.val rs.val rt.val low) = Fin.ofNat 8 low := by
    apply Fin.ext
    rw [field3_val, hw, Fin.val_ofNat]
    omega
  have himm : rawImm (encodeWord op.val rs.val rt.val low) = BitVec.ofNat 16 low := by
    apply BitVec.eq_of_toNat_eq
    rw [rawImm_toNat, hw, BitVec.toNat_ofNat]
    omega
  rw [decodeFields, hop, hrs, hrt, hrd, himm, BitVec.toNat_ofNat, Nat.mod_eq_of_lt hlow]

/-- Decoding a canonical word runs the arm of its opcode on the fields it was built from. -/
theorem decode_encodeWord (op rs rt : Fin 8) {low : Nat} (hlow : low < 65536) :
    decode (encodeWord op.val rs.val rt.val low) =
      instrOfFields ⟨op, rs, rt, Fin.ofNat 8 low, BitVec.ofNat 16 low, sext16 low⟩ := by
  rw [decode, decodeFields_encodeWord op rs rt hlow]

/-- The three-register format keeps `rd` in its low bits. -/
theorem decode_encodeWord_of_regs (op rs rt rd : Fin 8) :
    decode (encodeWord op.val rs.val rt.val rd.val) =
      instrOfFields ⟨op, rs, rt, rd, BitVec.ofNat 16 rd.val, sext16 rd.val⟩ := by
  rw [decode_encodeWord op rs rt (by omega), Fin.ofNat_val_eq_self]

/-- Format I keeps a well-formed immediate whole: 16 bits hold it, and the sign extension gives it back. -/
theorem decode_encodeWord_of_imm (op rs rt : Fin 8) {imm : Int} (h : immInRange imm = true) :
    decode (encodeWord op.val rs.val rt.val (low16OfImm imm)) =
      instrOfFields ⟨op, rs, rt, Fin.ofNat 8 (low16OfImm imm), BitVec.ofNat 16 (low16OfImm imm), imm⟩ := by
  rw [decode_encodeWord op rs rt (low16OfImm_lt imm), sext16_low16OfImm h]

/-- Settles O1: format by format, the fields read back are those of the instruction. -/
theorem decodeOfEncode : Obligations.DecodeOfEncode := by
  intro i hi
  cases i with
  | add rs rt rd => exact decode_encodeWord_of_regs 0 rs rt rd
  | nand rs rt rd => exact decode_encodeWord_of_regs 1 rs rt rd
  | lw rs rt imm => exact decode_encodeWord_of_imm 2 rs rt hi
  | sw rs rt imm => exact decode_encodeWord_of_imm 3 rs rt hi
  | beq rs rt imm => exact decode_encodeWord_of_imm 4 rs rt hi
  | jalr rs rt => exact decode_encodeWord_of_regs 5 rs rt 0
  | halt => exact decode_encodeWord_of_regs 6 0 0 0
  | noop => exact decode_encodeWord_of_regs 7 0 0 0

/-- Settles O2: the decoder evaluated at the nine words. -/
theorem specWordsDecode : Obligations.SpecWordsDecode := by
  unfold Obligations.SpecWordsDecode
  decide

/-- The Decoder reads bits 24:0 only (R73). -/
theorem decodeFields_congr {w v : Word} (h : bits 24 0 w = bits 24 0 v) : decodeFields w = decodeFields v := by
  have h25 : w.toNat % 2 ^ 25 = v.toNat % 2 ^ 25 := by simpa [bits] using h
  have hfield (lo : Nat) (hlo : lo ≤ 22) : field3 lo w = field3 lo v := by
    apply Fin.ext
    rw [field3_val, field3_val]
    interval_cases lo <;> omega
  have himm : rawImm w = rawImm v := by
    apply BitVec.eq_of_toNat_eq
    rw [rawImm_toNat, rawImm_toNat]
    omega
  rw [decodeFields, decodeFields, hfield 22 (by decide), hfield 19 (by decide), hfield 16 (by decide),
    hfield 0 (by decide), himm]

/-- Bits 24:16 are the opcode and the first two register fields. -/
theorem decodeFields_upper_congr {w v : Word} (h : bits 24 16 w = bits 24 16 v) :
    (decodeFields w).opcode = (decodeFields v).opcode ∧ (decodeFields w).rs = (decodeFields v).rs ∧
      (decodeFields w).rt = (decodeFields v).rt := by
  have h9 : w.toNat / 2 ^ 16 % 2 ^ 9 = v.toNat / 2 ^ 16 % 2 ^ 9 := by simpa [bits] using h
  refine ⟨Fin.ext ?_, Fin.ext ?_, Fin.ext ?_⟩
  · rw [decodeFields_opcode_val, decodeFields_opcode_val]
    omega
  · rw [decodeFields_rs_val, decodeFields_rs_val]
    omega
  · rw [decodeFields_rt_val, decodeFields_rt_val]
    omega

/-- Bits 2:0 are the third register field. -/
theorem decodeFields_rd_congr {w v : Word} (h : bits 2 0 w = bits 2 0 v) : (decodeFields w).rd = (decodeFields v).rd := by
  apply Fin.ext
  simpa [bits] using h

theorem bits_opcode (w : Word) : bits 24 22 w = (decodeFields w).opcode.val := by
  simp [bits]

theorem opcode_eq_of_bits {w : Word} (k : Fin 8) (h : bits 24 22 w = k.val) : (decodeFields w).opcode = k :=
  Fin.ext (by rw [← bits_opcode, h])

/-- The arm a word decodes by is the one of its opcode field. -/
theorem decode_of_opcode {w : Word} {k : Fin 8} (h : (decodeFields w).opcode = k) :
    decode w = instrOfFields { decodeFields w with opcode := k } := by
  rw [decode, ← h]

/-- `add` and `nand` read the opcode and the three register fields (R76). -/
theorem decode_congr_of_regs {w v : Word} (hop : bits 24 22 w = 0 ∨ bits 24 22 w = 1)
    (hupper : bits 24 16 w = bits 24 16 v) (hlower : bits 2 0 w = bits 2 0 v) : decode w = decode v := by
  obtain ⟨hopwv, hrs, hrt⟩ := decodeFields_upper_congr hupper
  have hrd := decodeFields_rd_congr hlower
  rcases hop.imp (opcode_eq_of_bits 0) (opcode_eq_of_bits 1) with hw | hw <;>
    simp only [decode_of_opcode hw, decode_of_opcode (hopwv.symm.trans hw), instrOfFields, hrs, hrt, hrd]

/-- `jalr` reads the opcode and the first two register fields. -/
theorem decode_congr_of_jalr {w v : Word} (hop : bits 24 22 w = 5) (hupper : bits 24 16 w = bits 24 16 v) :
    decode w = decode v := by
  obtain ⟨hopwv, hrs, hrt⟩ := decodeFields_upper_congr hupper
  have hw := opcode_eq_of_bits 5 hop
  rw [decode_of_opcode hw, decode_of_opcode (hopwv.symm.trans hw)]
  simp only [instrOfFields, hrs, hrt]

/-- `halt` and `noop` read the opcode alone. -/
theorem decode_congr_of_opcode {w v : Word} (hop : bits 24 22 w = 6 ∨ bits 24 22 w = 7)
    (heq : bits 24 22 w = bits 24 22 v) : decode w = decode v := by
  rcases hop with hop | hop
  · rw [decode_of_opcode (opcode_eq_of_bits 6 hop), decode_of_opcode (opcode_eq_of_bits 6 (heq ▸ hop))]
    rfl
  · rw [decode_of_opcode (opcode_eq_of_bits 7 hop), decode_of_opcode (opcode_eq_of_bits 7 (heq ▸ hop))]
    rfl

/-- Settles O6: each format reads the fields it uses and no other bit. -/
theorem unusedBitsIgnored : Obligations.UnusedBitsIgnored := by
  intro w v
  exact ⟨fun h => congrArg instrOfFields (decodeFields_congr h), decode_congr_of_regs, decode_congr_of_jalr,
    decode_congr_of_opcode⟩

/-- Only the immediate can make an instruction ill-formed. -/
theorem instrOfFields_wellFormed {f : Fields} (h : immInRange f.imm32 = true) : (instrOfFields f).WellFormed := by
  unfold instrOfFields
  split <;> simp [Instr.WellFormed, Instr.wellFormed, h]

/-- Settles O7: the decoder's immediate is in range for every word. -/
theorem everyWordDecodesWellFormed : Obligations.EveryWordDecodesWellFormed :=
  fun w => instrOfFields_wellFormed (imm32_inRange w)

end Sys2Proof
end

section
/-! What an executed instruction changes, seen from the instruction: its one register, its one word of memory, the condition it
reports; and that nothing else of the state enters into it. -/

namespace Sys2Proof.Machine

/-- What `exec` answers, one rule per instruction and outcome: the bounds check splits `lw` and `sw`, the comparison `beq`. -/
inductive Executes (s : State) : Instr → State → Prop where
  | add (rs rt rd : RegIdx) : Executes s (.add rs rt rd)
      ((s.writeReg rd (addWords (s.readReg rs) (s.readReg rt))).finish s.successor)
  | nand (rs rt rd : RegIdx) : Executes s (.nand rs rt rd)
      ((s.writeReg rd (nandWords (s.readReg rs) (s.readReg rt))).finish s.successor)
  | lw (rs rt : RegIdx) (imm : Int) (h : inCapacity (s.effectiveAddr rs imm) = true) : Executes s (.lw rs rt imm)
      ((s.writeReg rt (s.loadWord (wordIndex (s.effectiveAddr rs imm)))).finish s.successor)
  | lwOut (rs rt : RegIdx) (imm : Int) (h : inCapacity (s.effectiveAddr rs imm) = false) : Executes s (.lw rs rt imm)
      (s.outOfBounds (s.effectiveAddr rs imm))
  | sw (rs rt : RegIdx) (imm : Int) (h : inCapacity (s.effectiveAddr rs imm) = true) : Executes s (.sw rs rt imm)
      ((s.storeWord (wordIndex (s.effectiveAddr rs imm)) (s.readReg rt)).finish s.successor)
  | swOut (rs rt : RegIdx) (imm : Int) (h : inCapacity (s.effectiveAddr rs imm) = false) : Executes s (.sw rs rt imm)
      (s.outOfBounds (s.effectiveAddr rs imm))
  | beqTaken (rs rt : RegIdx) (imm : Int) (h : s.readReg rs = s.readReg rt) : Executes s (.beq rs rt imm)
      (s.finish (s.branchTarget imm))
  | beqNotTaken (rs rt : RegIdx) (imm : Int) (h : s.readReg rs ≠ s.readReg rt) : Executes s (.beq rs rt imm)
      (s.finish s.successor)
  | jalr (rs rt : RegIdx) : Executes s (.jalr rs rt) ((s.writeReg rt s.linkWord).finish (s.jumpTarget rs))
  | halt : Executes s .halt ((s.raise .haltInstruction none).finish s.successor)
  | noop : Executes s .noop (s.finish s.successor)

theorem eq_of_exec {i : Instr} {s t u : State} (h : exec i s = .next t) (hu : exec i s = .next u) : t = u :=
  Host.Outcome.next.inj (h.symm.trans hu)

/-- The rules of `Executes` are exactly the answers of `exec`. -/
theorem exec_eq_next_iff {i : Instr} {s t : State} : exec i s = .next t ↔ Executes s i t := by
  constructor
  · intro h
    cases i with
    | add rs rt rd => exact eq_of_exec h (exec_add ..) ▸ .add rs rt rd
    | nand rs rt rd => exact eq_of_exec h (exec_nand ..) ▸ .nand rs rt rd
    | lw rs rt imm =>
      cases hc : inCapacity (s.effectiveAddr rs imm)
      · exact eq_of_exec h (execLw_outOfBounds hc) ▸ .lwOut rs rt imm hc
      · exact eq_of_exec h (execLw_inBounds hc) ▸ .lw rs rt imm hc
    | sw rs rt imm =>
      cases hc : inCapacity (s.effectiveAddr rs imm)
      · exact eq_of_exec h (execSw_outOfBounds hc) ▸ .swOut rs rt imm hc
      · exact eq_of_exec h (execSw_inBounds hc) ▸ .sw rs rt imm hc
    | beq rs rt imm =>
      by_cases heq : s.readReg rs = s.readReg rt
      · exact eq_of_exec h (execBeq_taken heq) ▸ .beqTaken rs rt imm heq
      · exact eq_of_exec h (execBeq_notTaken heq) ▸ .beqNotTaken rs rt imm heq
    | jalr rs rt => exact eq_of_exec h (exec_jalr ..) ▸ .jalr rs rt
    | halt => exact eq_of_exec h (exec_halt s) ▸ .halt
    | noop => exact eq_of_exec h (exec_noop s) ▸ .noop
  · intro h
    cases h with
    | add rs rt rd => exact exec_add rs rt rd s
    | nand rs rt rd => exact exec_nand rs rt rd s
    | lw rs rt imm hc => exact execLw_inBounds hc
    | lwOut rs rt imm hc => exact execLw_outOfBounds hc
    | sw rs rt imm hc => exact execSw_inBounds hc
    | swOut rs rt imm hc => exact execSw_outOfBounds hc
    | beqTaken rs rt imm heq => exact execBeq_taken heq
    | beqNotTaken rs rt imm hne => exact execBeq_notTaken hne
    | jalr rs rt => exact exec_jalr rs rt s
    | halt => exact exec_halt s
    | noop => exact exec_noop s

@[simp] theorem State.outOfBounds_pc (s : State) (addr : Word) : (s.outOfBounds addr).pc = s.successor :=
  State.finish_pc _ _

@[simp] theorem State.outOfBounds_regs (s : State) (addr : Word) : (s.outOfBounds addr).regs = s.regs.set 0 0 :=
  State.finish_regs _ _

@[simp] theorem State.outOfBounds_mem (s : State) (addr : Word) : (s.outOfBounds addr).mem = s.mem :=
  State.finish_mem _ _

@[simp] theorem State.outOfBounds_cause (s : State) (addr : Word) :
    (s.outOfBounds addr).cause = .outOfBoundsMemoryAccess :=
  State.finish_cause _ _

@[simp] theorem State.readReg_outOfBounds (s : State) (addr : Word) (r : RegIdx) :
    (s.outOfBounds addr).readReg r = if r = 0 then 0 else s.readReg r :=
  State.readReg_finish _ _ _

/-- Only an `sw` in bounds changes a word of memory, only at its address, and to the stored word (R55 to R57). -/
theorem Executes.sw_of_mem_ne {i : Instr} {s t : State} {a : Nat} (h : Executes s i t)
    (hne : t.mem.read a ≠ s.mem.read a) :
    ∃ rs rt imm, i = .sw rs rt imm ∧ inCapacity (s.effectiveAddr rs imm) = true ∧
      a = wordIndex (s.effectiveAddr rs imm) ∧ t.mem.read a = s.readReg rt := by
  cases h with
  | sw rs rt imm hc =>
    have ha : a = wordIndex (s.effectiveAddr rs imm) := by
      by_contra ha
      simp [ha] at hne
    exact ⟨rs, rt, imm, rfl, hc, ha, by simp [ha]⟩
  | _ => simp at hne

/-- A register other than `x[0]` changes only as the destination of the instruction, of an `lw` only in bounds (R23). -/
theorem Executes.destination_of_readReg_ne {i : Instr} {s t : State} {r : RegIdx} (h : Executes s i t) (hr : r ≠ 0)
    (hne : t.readReg r ≠ s.readReg r) :
    (∃ rs rt, i = .add rs rt r) ∨ (∃ rs rt, i = .nand rs rt r) ∨
      (∃ rs imm, i = .lw rs r imm ∧ inCapacity (s.effectiveAddr rs imm) = true) ∨ ∃ rs, i = .jalr rs r := by
  have hwrite {d : RegIdx} {v : Word} {n : Int} (h : ((s.writeReg d v).finish n).readReg r ≠ s.readReg r) : r = d := by
    by_contra hd
    simp [hr, hd] at h
  cases h with
  | add rs rt rd =>
    obtain rfl := hwrite hne
    exact .inl ⟨rs, rt, rfl⟩
  | nand rs rt rd =>
    obtain rfl := hwrite hne
    exact .inr (.inl ⟨rs, rt, rfl⟩)
  | lw rs rt imm hc =>
    obtain rfl := hwrite hne
    exact .inr (.inr (.inl ⟨rs, imm, rfl, hc⟩))
  | jalr rs rt =>
    obtain rfl := hwrite hne
    exact .inr (.inr (.inr ⟨rs, rfl⟩))
  | _ => simp [hr] at hne

/-- Settles O26: each rule of `Executes` reads registers, pc and memory alone, and fits the other state with the same operands. -/
theorem execIgnoresEngineState : Obligations.ExecIgnoresEngineState := by
  intro i s s' t hregs hpc hmem h
  have hread (r : RegIdx) : s'.readReg r = s.readReg r := by rw [State.readReg, hregs, State.readReg]
  have hsucc : s'.successor = s.successor := by rw [State.successor, hpc, State.successor]
  have haddr (rs : RegIdx) (imm : Int) : s'.effectiveAddr rs imm = s.effectiveAddr rs imm := by
    rw [State.effectiveAddr, hread, State.effectiveAddr]
  simp only [exec_eq_next_iff] at h ⊢
  cases h with
  | add rs rt rd => exact ⟨_, .add rs rt rd, by simp [hread, hregs, hsucc, hmem]⟩
  | nand rs rt rd => exact ⟨_, .nand rs rt rd, by simp [hread, hregs, hsucc, hmem]⟩
  | lw rs rt imm hc =>
    exact ⟨_, .lw rs rt imm (haddr rs imm ▸ hc), by simp [haddr, hregs, hsucc, hmem]⟩
  | lwOut rs rt imm hc =>
    exact ⟨_, .lwOut rs rt imm (haddr rs imm ▸ hc), by simp [hregs, hsucc, hmem]⟩
  | sw rs rt imm hc =>
    exact ⟨_, .sw rs rt imm (haddr rs imm ▸ hc), by simp [haddr, hread, hregs, hsucc, hmem]⟩
  | swOut rs rt imm hc =>
    exact ⟨_, .swOut rs rt imm (haddr rs imm ▸ hc), by simp [hregs, hsucc, hmem]⟩
  | beqTaken rs rt imm heq =>
    exact ⟨_, .beqTaken rs rt imm (by rw [hread, hread, heq]), by simp [State.branchTarget, hregs, hpc, hmem]⟩
  | beqNotTaken rs rt imm hne =>
    exact ⟨_, .beqNotTaken rs rt imm (by rwa [hread, hread]), by simp [hregs, hsucc, hmem]⟩
  | jalr rs rt =>
    exact ⟨_, .jalr rs rt, by simp [State.linkWord, State.jumpTarget, hread, hregs, hpc, hmem]⟩
  | halt => exact ⟨_, .halt, by simp [hregs, hsucc, hmem]⟩
  | noop => exact ⟨_, .noop, by simp [hregs, hsucc, hmem]⟩

/-- Settles O13: the out-of-bounds path is a raised condition followed by steps 7 to 9. -/
theorem outOfBoundsCommitsThePc : Obligations.OutOfBoundsCommitsThePc := by
  intro i s rs rt imm hi hc
  have hexec : exec i s = .next (s.outOfBounds (s.effectiveAddr rs imm)) := by
    rcases hi with rfl | rfl
    · exact execLw_outOfBounds hc
    · exact execSw_outOfBounds hc
  obtain ⟨-, -, -, hhalted, -, -, -, htrace⟩ := s.outOfBounds_frame (s.effectiveAddr rs imm)
  exact ⟨_, hexec, ⟨hhalted, by simp⟩, s.outOfBounds_pc _, by simp, htrace⟩

end Sys2Proof.Machine
end

section
/-! Words and addresses: `add` on the two views of a word (R121, R123), and the bounds verdict of the wrapped address (R130). -/

namespace Sys2Proof.Machine

/-- The wrapped signed sum is the sum of the bit patterns. -/
theorem addWords_eq_add (a b : Word) : addWords a b = a + b := by
  rw [addWords, wrap32, BitVec.ofInt_add, BitVec.ofInt_toInt, BitVec.ofInt_toInt]

/-- Narrowing changes an integer by a multiple of 2^32 only (R10). -/
theorem wrap32_toInt_emod (z : Int) : (wrap32 z).toInt % 2 ^ 32 = z % 2 ^ 32 := by
  rw [wrap32, BitVec.toInt_ofInt]
  exact Int.bmod_emod

/-- Settles O9: one bit pattern, read as the unsigned sum and as the wrapped signed sum. -/
theorem addHasNoSignedness : Obligations.AddHasNoSignedness := by
  intro s t rs rt rd h
  obtain rfl := eq_of_exec h (exec_add rs rt rd s)
  refine ⟨addWords (s.readReg rs) (s.readReg rt), ?_, ?_, wrap32_toInt_emod _⟩
  · simp
  · rw [addWords_eq_add, BitVec.ofNat_add, BitVec.ofNat_toNat, BitVec.ofNat_toNat, BitVec.setWidth_eq, BitVec.setWidth_eq]

/-- A sum outside the signed range wraps to a negative address or to one above the capacity, so wrapping keeps the verdict. -/
theorem wrap32_toInt_inBounds_iff {z : Int} (hlo : -2147483648 - 32768 ≤ z) (hhi : z ≤ 2147483647 + 32767) :
    (0 ≤ (wrap32 z).toInt ∧ (wrap32 z).toInt < 65536) ↔ (0 ≤ z ∧ z < 65536) := by
  rw [wrap32, BitVec.toInt_ofInt, Int.bmod]
  split <;> omega

/-- The exact address sum is within 16 bits' reach of the signed range. -/
theorem exactAddr_range (s : State) (rs : RegIdx) {imm : Int} (h : immInRange imm = true) :
    -2147483648 - 32768 ≤ (s.readReg rs).toInt + imm ∧ (s.readReg rs).toInt + imm ≤ 2147483647 + 32767 := by
  have hlo : -2 ^ 31 ≤ (s.readReg rs).toInt := BitVec.le_toInt _
  have hhi : (s.readReg rs).toInt < 2 ^ 31 := BitVec.toInt_lt
  simp only [immInRange, Bool.and_eq_true, decide_eq_true_eq] at h
  omega

/-- Settles O18: the wrapped sum has the verdict of the exact one, and an exact sum in bounds does not wrap. -/
theorem wrapNeverChangesTheVerdict : Obligations.WrapNeverChangesTheVerdict := by
  intro s rs imm himm
  obtain ⟨hlo, hhi⟩ := exactAddr_range s rs himm
  have hverdict : inCapacity (s.effectiveAddr rs imm) = true ↔
      0 ≤ (s.readReg rs).toInt + imm ∧ (s.readReg rs).toInt + imm < 65536 :=
    (inCapacity_iff _).trans (wrap32_toInt_inBounds_iff hlo hhi)
  refine ⟨hverdict, fun hc => ?_⟩
  obtain ⟨hnonneg, hlt⟩ := hverdict.mp hc
  rw [wordIndex_cast hc]
  exact wrap32_toInt_of_range (by omega) (by omega)

end Sys2Proof.Machine
end

section
/-! A store and what sees it after: a load (R59), and the snapshot (R52, R113). -/

namespace Sys2Proof.Machine

/-- Settles O21: the read at the common address gives the word just written there. -/
theorem loadReturnsStoredWord : Obligations.LoadReturnsStoredWord := by
  intro s t rs rt qs qt imm jmm hc hsw haddr
  obtain rfl := eq_of_exec hsw (execSw_inBounds hc)
  refine ⟨_, execLw_inBounds (by rwa [haddr]), ?_⟩
  rw [haddr]
  simp

/-- The loaded region after a write is the old list with the word in its place, or the old list if the place is above it. -/
theorem Memory.map_read_write (m : Memory) (n a : Nat) (v : Word) :
    (List.range n).map (m.write a v).read = ((List.range n).map m.read).set a v := by
  refine List.ext_getElem (by simp) fun k hk _ => ?_
  simp [List.getElem_set, eq_comm (a := k)]

theorem State.snapshot_mem_eq_map_read (s : State) : s.snapshot.mem = (List.range s.loadedCount).map s.mem.read := rfl

/-- Settles O23: the snapshot lists what the memory reads as below `loaded_count`, which the store leaves alone. -/
theorem snapshotShowsStoresBelowCount : Obligations.SnapshotShowsStoresBelowCount := by
  intro s t rs rt imm hc hsw
  obtain rfl := eq_of_exec hsw (execSw_inBounds hc)
  rw [State.snapshot_mem_eq_map_read, State.finish_loadedCount, State.finish_mem, State.storeWord_loadedCount,
    State.storeWord_mem, Memory.map_read_write, State.snapshot_mem_eq_map_read]

end Sys2Proof.Machine
end

section
/-! The cycle (R100): its four outcomes as equations, the order in which they are tried, and the limit of R102. -/

namespace Sys2Proof.Machine

theorem cycle_of_halted {limit : Option Nat} {s : State} (h : s.halted = true) :
    cycle limit s = .fault (.halted s.cause s.faultInfo) :=
  if_pos h

/-- A cycle that fails step 2 (R102). -/
theorem cycle_of_limitExceeded {limit : Option Nat} {s : State} (hrun : s.halted = false)
    (hlimit : limitExceeded limit s.emit.countCycle = true) :
    cycle limit s = .next (s.emit.countCycle.stopWith .stepLimitExceeded none) := by
  simp [cycle, hrun, hlimit]

/-- A cycle that passes steps 2 and 3 (R104). -/
theorem cycle_of_fetchable {limit : Option Nat} {s : State} (hrun : s.halted = false)
    (hlimit : limitExceeded limit s.emit.countCycle = false) (hfetch : s.fetchable = true) :
    cycle limit s = exec (decode s.fetch) s.emit.countCycle := by
  have hfetch' : s.emit.countCycle.fetchable = true := hfetch
  simp only [cycle, hrun, hlimit, hfetch', if_true, Bool.false_eq_true, if_false]
  rfl

/-- A Running machine always completes its cycle (R110). -/
theorem cycle_completes (limit : Option Nat) {s : State} (hrun : s.halted = false) : ∃ t, cycle limit s = .next t := by
  cases hlimit : limitExceeded limit s.emit.countCycle
  · cases hfetch : s.fetchable
    · exact ⟨_, cycle_of_not_fetchable hrun hlimit hfetch⟩
    · obtain ⟨t, ht, -⟩ := exec_effect (decode s.fetch) s.emit.countCycle
      exact ⟨t, (cycle_of_fetchable hrun hlimit hfetch).trans ht⟩
  · exact ⟨_, cycle_of_limitExceeded hrun hlimit⟩

/-- Settles O30: the halted flag alone decides between the fault and a cycle. -/
theorem cycleExactlyWhileRunning : Obligations.CycleExactlyWhileRunning := by
  intro limit s
  exact ⟨⟨fun ⟨_, h⟩ => (cycle_cases h).1, cycle_completes limit⟩, cycle_of_halted⟩

theorem limitExceeded_countCycle_some (l : Nat) (s : State) :
    limitExceeded (some l) s.emit.countCycle = true ↔ l ≤ s.steps :=
  decide_eq_true_iff.trans Nat.lt_succ_iff

theorem limitExceeded_countCycle_some_eq_false {l : Nat} {s : State} (h : s.steps < l) :
    limitExceeded (some l) s.emit.countCycle = false :=
  limitExceeded_countCycle_eq_false fun _ hl => Option.some.inj hl ▸ h

/-- Settles O27: steps 1 to 4 leave the state with one more snapshot and one more cycle counted, and hand it to `exec`. -/
theorem stepRunsDecodedInstruction : Obligations.StepRunsDecodedInstruction := by
  rintro s i hrun hsteps hlo hhi rfl
  exact cycle_of_fetchable hrun (limitExceeded_countCycle_some_eq_false hsteps) ((fetchable_iff s).mpr ⟨hlo, hhi⟩)

/-- Settles O22: the fetch reads the memory at the pc, which is where the store put the word. -/
theorem storeSeenByFetch : Obligations.StoreSeenByFetch := by
  intro s t u rs rt imm hc hsw hmem hpc hcount hrun hsteps
  obtain rfl := eq_of_exec hsw (execSw_inBounds hc)
  have hnonneg : 0 ≤ u.pc := hpc ▸ ((inCapacity_iff _).mp hc).1
  have hword : u.mem.read u.pc.toNat = s.readReg rt := by
    rw [hmem, hpc, ← wordIndex]
    simp
  exact stepRunsDecodedInstruction u _ hrun hsteps hnonneg hcount (by rw [hword])

/-- Settles O24: the two stops keep the memory, and the executed instruction must be the `sw`. -/
theorem onlySwChangesMemory : Obligations.OnlySwChangesMemory := by
  intro s t a h hne
  obtain ⟨-, ⟨-, rfl⟩ | ⟨-, -, rfl⟩ | ⟨-, hfetch, hexec⟩⟩ := cycle_cases h
  · exact absurd rfl hne
  · exact absurd rfl hne
  · obtain ⟨rs, rt, imm, hi, hsw⟩ := (exec_eq_next_iff.mp hexec).sw_of_mem_ne hne
    exact ⟨rs, rt, imm, hfetch, hi, hsw⟩

/-- Settles O25: the two stops keep the registers, and the executed instruction must name the register. -/
theorem onlyDestinationChanges : Obligations.OnlyDestinationChanges := by
  intro s t r h hr hne
  obtain ⟨-, ⟨-, rfl⟩ | ⟨-, -, rfl⟩ | ⟨-, hfetch, hexec⟩⟩ := cycle_cases h
  · exact absurd rfl hne
  · exact absurd rfl hne
  · exact ⟨hfetch, (exec_eq_next_iff.mp hexec).destination_of_readReg_ne hr hne⟩

/-- No instruction touches `loaded_count` or the step counter. -/
theorem Effect.counters_eq {i : Instr} {s t : State} (h : Effect i s t) :
    t.loadedCount = s.loadedCount ∧ t.steps = s.steps := by
  cases h <;> simp [State.outOfBounds]

/-- Settles O34: step 2 counts every cycle, and nothing after it counts. -/
theorem cycleCountsItself : Obligations.CycleCountsItself := by
  intro limit s t h
  obtain ⟨-, ⟨-, rfl⟩ | ⟨-, -, rfl⟩ | ⟨-, -, hexec⟩⟩ := cycle_cases h
  · exact ⟨rfl, rfl⟩
  · exact ⟨rfl, rfl⟩
  · exact (effect_of_exec hexec).counters_eq

/-- The outcomes a machine can halt with, each with its context (R33, R34): UnknownOpcode is not among them (R164). -/
inductive ReportedOutcome : Cause → Option Word → Prop where
  | halt : ReportedOutcome .haltInstruction none
  | stepLimit : ReportedOutcome .stepLimitExceeded none
  | fetch (pc : Word) : ReportedOutcome .invalidFetchAddress (some pc)
  | memory (addr : Word) : ReportedOutcome .outOfBoundsMemoryAccess (some addr)

/-- An instruction leaves the halt record alone, or halts by `halt` or by an address out of bounds. -/
theorem Effect.haltRecord {i : Instr} {s t : State} (h : Effect i s t) :
    (t.halted = s.halted ∧ t.cause = s.cause ∧ t.faultInfo = s.faultInfo) ∨
      (t.halted = true ∧ t.cause ≠ .stepLimitExceeded ∧ ReportedOutcome t.cause t.faultInfo) := by
  cases h with
  | write | store | plain => exact .inl (by simp)
  | halt => exact .inr (by simpa using ReportedOutcome.halt)
  | outOfBounds addr => exact .inr (by simpa [State.outOfBounds] using ReportedOutcome.memory addr)

/-- A cycle leaves the halt record alone and the machine Running, or halts it with a reported outcome. -/
theorem cycle_haltRecord {limit : Option Nat} {s t : State} (h : cycle limit s = .next t) :
    (t.halted = false ∧ t.cause = s.cause ∧ t.faultInfo = s.faultInfo) ∨
      (t.halted = true ∧ ReportedOutcome t.cause t.faultInfo) := by
  obtain ⟨hrun, ⟨-, rfl⟩ | ⟨-, -, rfl⟩ | ⟨-, -, hexec⟩⟩ := cycle_cases h
  · exact .inr ⟨rfl, .stepLimit⟩
  · exact .inr ⟨rfl, .fetch _⟩
  · rcases (effect_of_exec hexec).haltRecord with ⟨hhalted, hkept⟩ | ⟨hhalted, -, hend⟩
    · exact .inl ⟨hhalted.trans hrun, hkept⟩
    · exact .inr ⟨hhalted, hend⟩

theorem ReportedOutcome.cause_ne_unknownOpcode {c : Cause} {info : Option Word} (h : ReportedOutcome c info) :
    c ≠ .unknownOpcode := by
  cases h <;> decide

/-- Settles O20: the cause is kept, or it is one a cycle reports, and UnknownOpcode is none of these. -/
theorem unknownOpcodeNeverRaised : Obligations.UnknownOpcodeNeverRaised := by
  intro limit s t h hs
  rcases cycle_haltRecord h with ⟨-, hcause, -⟩ | ⟨-, hend⟩
  · rwa [hcause]
  · exact hend.cause_ne_unknownOpcode

/-- The limit enters a cycle through the check of step 2 only. -/
theorem cycle_congr_limit {limit limit' : Option Nat} {s : State}
    (h : limitExceeded limit s.emit.countCycle = limitExceeded limit' s.emit.countCycle) :
    cycle limit s = cycle limit' s := by
  simp only [cycle, h]

/-- Without a limit only an instruction or the fetch check can end a cycle. -/
theorem cycle_none_cause_ne_stepLimitExceeded {s t : State} (h : cycle none s = .next t)
    (hs : s.cause ≠ .stepLimitExceeded) : t.cause ≠ .stepLimitExceeded := by
  obtain ⟨-, ⟨hlimit, -⟩ | ⟨-, -, rfl⟩ | ⟨-, -, hexec⟩⟩ := cycle_cases h
  · cases hlimit
  · simp
  · rcases (effect_of_exec hexec).haltRecord with ⟨-, hcause, -⟩ | ⟨-, hne, -⟩
    · rwa [hcause]
    · exact hne

/-- Settles O28: at the limit step 2 stops the cycle, and below it the check answers as it does without a limit. -/
theorem stepLimitStopsTheRun : Obligations.StepLimitStopsTheRun := by
  refine ⟨fun l s hrun hl => ?_, fun l s hl => ?_, fun s t h => ?_⟩
  · rw [cycle_of_limitExceeded hrun ((limitExceeded_countCycle_some l s).mpr hl), State.stopWith_countCycle_emit]
  · exact cycle_congr_limit (limitExceeded_countCycle_some_eq_false hl)
  · exact ⟨(cycleCountsItself none s t h).2, cycle_none_cause_ne_stepLimitExceeded h⟩

/-- Settles O31: the clauses are the branches of the cycle in their order, and the last one the instruction's own outcome. -/
theorem conditionPriority : Obligations.ConditionPriority := by
  intro l s t h
  obtain ⟨-, ⟨hlimit, rfl⟩ | ⟨hlimit, hfetch, rfl⟩ | ⟨hlimit, hfetch, hexec⟩⟩ := cycle_cases h
  · have hl := (limitExceeded_countCycle_some l s).mp hlimit
    exact ⟨fun _ => rfl, fun hlt => absurd hl (by omega), fun hlt => absurd hl (by omega)⟩
  · have hl := mt (limitExceeded_countCycle_some l s).mpr (by simp [hlimit])
    have hpc := (fetchable_eq_false_iff s).mp hfetch
    exact ⟨fun hle => absurd hle hl, fun _ _ => rfl, fun _ hlo hhi => by omega⟩
  · have hl := mt (limitExceeded_countCycle_some l s).mpr (by simp [hlimit])
    have hpc := (fetchable_iff s).mp hfetch
    refine ⟨fun hle => absurd hle hl, fun _ hbad => by omega, fun _ _ _ => ?_⟩
    have hx : Executes s.emit.countCycle (decode (s.mem.read s.pc.toNat)) t := exec_eq_next_iff.mp hexec
    have haddr (rs : RegIdx) (imm : Int) : s.emit.countCycle.effectiveAddr rs imm = s.effectiveAddr rs imm := rfl
    generalize decode (s.mem.read s.pc.toNat) = i at hx ⊢
    cases hx with
    | lw rs rt imm hc | lwOut rs rt imm hc | sw rs rt imm hc | swOut rs rt imm hc =>
      rw [haddr] at hc
      simp [hc]
    | _ => simp

/-- A control transfer leaves the engine's own state as it was. -/
theorem engineKept_of_transfer {i : Instr} {s t : State}
    (hi : (∃ rs rt imm, i = .beq rs rt imm) ∨ ∃ rs rt, i = .jalr rs rt) (hrun : s.halted = false)
    (h : exec i s = .next t) : EngineKept s t := by
  rcases hi with ⟨rs, rt, imm, rfl⟩ | ⟨rs, rt, rfl⟩
  · obtain ⟨u, hu, -, -, hkept, -⟩ := beqBranchesWhenEqual.2 s rs rt imm hrun
    exact eq_of_exec h hu ▸ hkept
  · obtain ⟨u, hu, -, -, -, hkept⟩ := jalrLinksAndJumps.2 s rs rt hrun
    exact eq_of_exec h hu ▸ hkept

/-- Settles O32: after the transfer the machine is Running at the bad pc, and the next cycle stops in step 3. -/
theorem badTargetFaultsNextCycle : Obligations.BadTargetFaultsNextCycle := by
  intro i s t hi hrun hsteps hexec hbad
  obtain ⟨-, hhalted, -, -, hcount, -⟩ := engineKept_of_transfer hi hrun hexec
  have hrun' : t.halted = false := hhalted.trans hrun
  have hsteps' : t.steps < 1000000 := hcount ▸ hsteps
  obtain ⟨hnext, -⟩ := invalidFetchStopsTheRun (some 1000000) t hrun' (fun _ hl => Option.some.inj hl ▸ hsteps') hbad
  exact ⟨hrun', _, hnext, rfl, rfl, rfl, rfl, rfl, rfl⟩

end Sys2Proof.Machine
end

section
/-! The invariants of R26, R35, R37 and R38: every cycle keeps each of them, and the bound on the counter makes every run halt. -/

namespace Sys2Proof.Machine

/-- Every cycle leaves `x[0]` at 0 (R107). -/
theorem cycle_readReg_zero {limit : Option Nat} {s t : State} (h : cycle limit s = .next t) (hzero : s.readReg 0 = 0) :
    t.readReg 0 = 0 := by
  obtain ⟨-, ⟨-, rfl⟩ | ⟨-, -, rfl⟩ | ⟨-, -, hexec⟩⟩ := cycle_cases h
  · exact hzero
  · exact hzero
  · exact (effect_of_exec hexec).readReg_zero

theorem Effect.mem_wf {i : Instr} {s t : State} (h : Effect i s t) (hmem : s.mem.wf) : t.mem.wf := by
  cases h with
  | store a v ha => simpa using Memory.wf_write hmem ha v
  | write | plain | halt | outOfBounds => simpa using hmem

/-- Every cycle keeps the canonical form of the memory. -/
theorem cycle_mem_wf {limit : Option Nat} {s t : State} (h : cycle limit s = .next t) (hmem : s.mem.wf) : t.mem.wf := by
  obtain ⟨-, ⟨-, rfl⟩ | ⟨-, -, rfl⟩ | ⟨-, -, hexec⟩⟩ := cycle_cases h
  · exact hmem
  · exact hmem
  · exact (effect_of_exec hexec).mem_wf hmem

/-- Every instruction commits one of the three next pcs (R25, R108). -/
theorem Effect.nextPc {i : Instr} {s t : State} (h : Effect i s t) : NextPc i s t.pc := by
  cases h with
  | write d v n hn | plain n hn => simpa using hn
  | store | halt | outOfBounds => exact .inl (by simp)

/-- From a pc inside the memory's addresses a decoded instruction reaches only pcs in the signed 32-bit range (R26). -/
theorem NextPc.range {i : Instr} {s : State} {n : Int} (h : NextPc i s n) (hi : i.WellFormed) (hlo : 0 ≤ s.pc)
    (hhi : s.pc < 65536) : -2147483648 ≤ n ∧ n ≤ 2147483647 := by
  rcases h with rfl | ⟨rs, rt, -, rfl⟩ | ⟨rs, rt, imm, rfl, rfl⟩
  · unfold State.successor
    omega
  · exact ⟨BitVec.le_toInt (s.readReg rs), Int.le_of_lt_add_one (BitVec.toInt_lt (x := s.readReg rs))⟩
  · have himm : immInRange imm = true := hi
    simp only [immInRange, Bool.and_eq_true, decide_eq_true_eq] at himm
    unfold State.branchTarget
    omega

/-- Every cycle keeps the pc in the signed 32-bit range: it executes only from a loaded address, and a stop keeps the pc. -/
theorem cycle_pc_range {limit : Option Nat} {s t : State} (h : cycle limit s = .next t)
    (hcap : s.loadedCount ≤ Config.memCapacity) (hlo : -2147483648 ≤ s.pc) (hhi : s.pc ≤ 2147483647) :
    -2147483648 ≤ t.pc ∧ t.pc ≤ 2147483647 := by
  obtain ⟨-, ⟨-, rfl⟩ | ⟨-, -, rfl⟩ | ⟨-, hfetch, hexec⟩⟩ := cycle_cases h
  · exact ⟨hlo, hhi⟩
  · exact ⟨hlo, hhi⟩
  · obtain ⟨hnonneg, hlt⟩ := (fetchable_iff s).mp hfetch
    have hpc : s.pc < 65536 := by
      unfold Config.memCapacity at hcap
      omega
    exact (effect_of_exec hexec).nextPc.range (everyWordDecodesWellFormed s.fetch) hnonneg hpc

theorem ReportedOutcome.cause_ne_none {c : Cause} {info : Option Word} (h : ReportedOutcome c info) : c ≠ .none := by
  cases h <;> decide

/-- The context goes with exactly two causes (R34). -/
theorem ReportedOutcome.isSome_iff {c : Cause} {info : Option Word} (h : ReportedOutcome c info) :
    info.isSome = true ↔ c = .invalidFetchAddress ∨ c = .outOfBoundsMemoryAccess := by
  cases h <;> simp

/-- Settles O40: registers, memory, count and pc field by field; the halt record is kept while Running, or is a reported outcome. -/
theorem stateInvariantKept : Obligations.StateInvariantKept := by
  intro limit s t hinv h
  have hcount := (cycleCountsItself limit s t h).1
  obtain ⟨hpcLow, hpcHigh⟩ := cycle_pc_range h hinv.loaded hinv.pcLow hinv.pcHigh
  have hrecord : (t.cause = .none ↔ t.halted = false) ∧
      (t.faultInfo.isSome = true ↔ t.cause = .invalidFetchAddress ∨ t.cause = .outOfBoundsMemoryAccess) := by
    rcases cycle_haltRecord h with ⟨hhalted, hcause, hinfo⟩ | ⟨hhalted, hend⟩
    · have hrun : s.halted = false := (cycle_cases h).1
      rw [hhalted.trans hrun.symm, hcause, hinfo]
      exact ⟨hinv.causeRunning, hinv.info⟩
    · exact ⟨by simp [hhalted, hend.cause_ne_none], hend.isSome_iff⟩
  exact
    { regZero := cycle_readReg_zero h hinv.regZero
      memCanonical := cycle_mem_wf h hinv.memCanonical
      loaded := hcount ▸ hinv.loaded
      causeRunning := hrecord.1
      info := hrecord.2
      known := unknownOpcodeNeverRaised limit s t h hinv.known
      pcLow := hpcLow
      pcHigh := hpcHigh }

/-- A snapshot shows `x[0]` and exactly the loaded region (R37). -/
theorem State.snapshot_shown {s : State} (hzero : s.readReg 0 = 0) :
    s.snapshot.regs.get 0 = 0 ∧ s.snapshot.mem.length = s.loadedCount :=
  ⟨hzero, by simp⟩

/-- Settles O41: a cycle appends one snapshot with the step it counts, and one more when it halts, each of a state with `x[0] = 0`. -/
theorem traceInvariantKept : Obligations.TraceInvariantKept := by
  intro limit s t hzero hinv h
  have htrace := snapshotsOfEachCycle limit s t h
  obtain ⟨hcount, hsteps⟩ := cycleCountsItself limit s t h
  have hrun : s.halted = false := (cycle_cases h).1
  have hlen : s.trace.length = s.steps := by simpa [hrun] using hinv.count
  constructor
  case count =>
    rw [htrace, hsteps, ← hlen]
    cases t.halted <;> simp
  case shown =>
    intro p hp
    have hcases : p ∈ s.trace ∨ p = s.snapshot ∨ p = t.snapshot := by
      rw [htrace] at hp
      cases hh : t.halted <;> simp [hh] at hp <;> tauto
    rcases hcases with hp | rfl | rfl
    · rw [hcount]
      exact hinv.shown p hp
    · rw [hcount]
      exact s.snapshot_shown hzero
    · exact t.snapshot_shown (cycle_readReg_zero h hzero)

/-- Settles O42: past the limit the cycle halts on its one step more; otherwise the count it reached is still within the limit. -/
theorem stepCounterBounded : Obligations.StepCounterBounded := by
  rintro limit s t hs h l rfl
  obtain ⟨-, hsteps⟩ := cycleCountsItself _ s t h
  obtain ⟨hrun, hcases⟩ := cycle_cases h
  have hle : s.steps ≤ l := by simpa [hrun] using hs l rfl
  have hwithin (hlimit : limitExceeded (some l) s.emit.countCycle = false) : t.steps ≤ l := by
    have := mt (limitExceeded_countCycle_some l s).mpr (by simp [hlimit])
    omega
  rcases hcases with ⟨-, rfl⟩ | ⟨hlimit, -⟩ | ⟨hlimit, -⟩
  · rw [State.stopWith_halted, if_pos rfl]
    omega
  · exact Nat.le_add_right_of_le (hwithin hlimit)
  · exact Nat.le_add_right_of_le (hwithin hlimit)

theorem run_succ_of_next {M : Host.Core} {s t : M.State} (h : M.step s = .next t) (n : Nat) :
    M.run (n + 1) s = M.run n t := by
  rw [Host.Core.run, h]

theorem run_succ_of_step {s t : State} (h : step s = .next t) (n : Nat) :
    Host.Core.run Sys2Proof.core (n + 1) s = Host.Core.run Sys2Proof.core n t :=
  run_succ_of_next (M := Sys2Proof.core) h n

/-- With `d` cycles left below the limit a Running machine halts within `d + 1` steps. -/
theorem exists_run_halted (d : Nat) (s : State) (hrun : s.halted = false) (hd : d + s.steps = 1000000) :
    ∃ (n : Nat) (t : State), n ≤ d + 1 ∧ Host.Core.run Sys2Proof.core n s = .next t ∧ t.halted = true := by
  induction d generalizing s with
  | zero =>
    have hl : 1000000 ≤ s.steps := by omega
    exact ⟨1, _, Nat.le_refl _, run_succ_of_step (stepLimitStopsTheRun.1 1000000 s hrun hl) 0, rfl⟩
  | succ d ih =>
    obtain ⟨t, ht⟩ := cycle_completes Config.stepLimit hrun
    cases hhalted : t.halted
    · have hsteps := (cycleCountsItself _ s t ht).2
      obtain ⟨n, u, hn, hu, hend⟩ := ih t hhalted (by omega)
      exact ⟨n + 1, u, by omega, (run_succ_of_step ht n).trans hu, hend⟩
    · exact ⟨1, t, by omega, run_succ_of_step ht 0, hhalted⟩

/-- Settles O43: each cycle that does not halt uses up one of the cycles left below the limit. -/
theorem everyRunHalts : Obligations.EveryRunHalts := by
  intro s hrun hsteps
  obtain ⟨n, t, hn, ht⟩ := exists_run_halted (1000000 - s.steps) s hrun (by omega)
  exact ⟨n, t, by omega, ht⟩

end Sys2Proof.Machine
end

section
/-! The start of a run (R39, R190, R191): refused input, the empty image, and the invariants. -/

namespace Sys2Proof.Machine

/-- Settles O36: each way out of the contract contradicts one of its clauses. -/
theorem launchRefusesOtherInput : Obligations.LaunchRefusesOtherInput := by
  intro image count hout
  refine if_neg fun hin => ?_
  obtain ⟨hlen, hcap, hrange⟩ := imageInContract_iff.mp hin
  rcases hout with h | h | ⟨v, hv, h⟩
  · exact h hlen
  · omega
  · have := hrange v hv
    omega

/-- A launch that answers a state had its input inside the contract, and answers the loaded reset state. -/
theorem launch_eq_next {image : List Int} {count : Nat} {t : State} (h : launch image count = .next t) :
    imageInContract image count = true ∧
      t = { State.reset with mem := Memory.ofWords 0 (image.map wrap32), loadedCount := count } := by
  cases hin : imageInContract image count
  · simp [launch, hin] at h
  · rw [launch_of_inContract hin] at h
    exact ⟨rfl, (Host.Outcome.next.inj h).symm⟩

/-- Settles O39: the registers, the counter and the trace are those of reset, and the loaded memory is canonical. -/
theorem invariantsAtLaunch : Obligations.InvariantsAtLaunch := by
  intro image count t h
  obtain ⟨hin, rfl⟩ := launch_eq_next h
  obtain ⟨hlen, hcap, -⟩ := imageInContract_iff.mp hin
  refine ⟨?_, ⟨rfl, fun p hp => absurd hp List.not_mem_nil⟩, fun _ _ _ => Nat.zero_le _⟩
  exact
    { regZero := State.readReg_of_regs_zero rfl 0
      memCanonical := Memory.wf_ofWords (by simpa [hlen] using hcap)
      loaded := hcap
      causeRunning := by simp [State.reset]
      info := by simp [State.reset]
      known := by simp [State.reset]
      pcLow := by simp [State.reset]
      pcHigh := by simp [State.reset] }

theorem launch_nil : launch [] 0 = .next State.reset := rfl

/-- Settles O37: with nothing loaded no pc is fetchable, so the first cycle stops in step 3. -/
theorem resetIsTheEmptyLaunch : Obligations.ResetIsTheEmptyLaunch := by
  refine ⟨launch_nil, ?_⟩
  obtain ⟨hstep, -⟩ := invalidFetchStopsTheRun (some 1000000) State.reset rfl
    (fun _ hl => Option.some.inj hl ▸ (by decide)) (.inr (by decide))
  exact ⟨_, hstep, rfl, rfl, rfl, rfl, rfl⟩

/-- Settles O38: reset is the launch of the empty image. -/
theorem invariantsAtReset : Obligations.InvariantsAtReset :=
  invariantsAtLaunch [] 0 State.reset launch_nil

end Sys2Proof.Machine
end
